-- ==== Sys2Proof/Word.lean ====
section
/-! DEFINITION. The word type. Every Tensix instruction, every MopCfg register and every replay slot
is one 32-bit word (spec/30_encoding.md R80, spec/00_scope.md R8, R10). -/

namespace Sys2Proof

/-- A 32-bit word: bit 31 is the most significant (R10). -/
abbrev Word := BitVec 32

end Sys2Proof
end

