-- ==== Sys2Proof/Config.lean ====
section
/-! DEFINITION. What is fixed for the machine: the threads, cores and units of spec/00_scope.md R3, R4,
the fixed parameters of R8, the open parameters of R9 (constants without a body, so that nothing can be
proved of their value), and the free values. -/

namespace Sys2Proof

/-- The three threads T0, T1, T2 (R4). -/
inductive ThreadId where
  | t0
  | t1
  | t2
deriving DecidableEq, Repr, Inhabited

/-- The four RISC-V cores: TRISC_t drives thread t, BRISC enters after the MOP Expander (R4). -/
inductive CoreId where
  | trisc (t : ThreadId)
  | brisc
deriving DecidableEq, Repr, Inhabited

/-- The two units of a thread that take instruction words (R3). -/
inductive Stage where
  | mopExpander
  | replayExpander
deriving DecidableEq, Repr, Inhabited

/-- Where an instruction is being taken: the thread and the unit. -/
structure Site where
  thread : ThreadId
  stage  : Stage
deriving DecidableEq, Repr, Inhabited

/-- Who can make the next step (spec/42_passthrough_and_composition.md R201). -/
inductive Agent where
  | core (c : CoreId)
  | expander (site : Site)
deriving DecidableEq, Repr, Inhabited

/-- WormholeB0 or Blackhole (R2, R9 `GENERATION`). -/
inductive Generation where
  | wormholeB0
  | blackhole
deriving DecidableEq, Repr, Inhabited

namespace Config

/-- `FIFO_DEPTH` (R8). -/
def fifoDepth : Nat := 32

/-- `MOPCFG_N` (R8). -/
def mopCfgCount : Nat := 9

/-- `MOPCFG_BASE`, TENSIX_MOP_CFG_BASE (R8, spec/20_memory.md R52). -/
def mopCfgBase : Word := 0xFFB80000

/-- `REPLAY_SLOTS` (R8). -/
def replaySlots : Nat := 32

/-- `REPLAY_MAX` (R8). -/
def replayMax : Nat := 64

/-- `MOP_MAX` (R8; spec/40_mop.md R147). -/
def mopMax : Nat := 32639

/-- `QSTATUS_CSR` (R8). -/
def qstatusCsr : Nat := 0xBC0

/-- `GATHER_CSR` (R8); its bit is 18. -/
def gatherCsr : Nat := 0x7C0

/-- `GATHER_CSR`'s bit (R8). -/
def gatherBit : Nat := 18

/-- Open parameter `GENERATION` (R9): it decides only whether CSR 0x7C0 bit 18 is claimed to exist,
and no functional rule differs (spec/92_eei_decisions.md, open parameters; log 32). -/
opaque generation : Generation

/-- Open parameter `PC_BUF_BASE` (R9; spec/20_memory.md R60; log 22). -/
opaque pcBufBase : Word

/-- The address of `pc_buf_base[2]`, `PC_BUF_BASE + 8` (spec/20_memory.md R60). -/
def mopSyncAddr : Word := pcBufBase + 8

/-- Open parameter `TTSYNC_CSR`, a CSR number (R9; spec/10_state.md R39; log 23). -/
opaque ttSyncCsr : Nat

/-- Open parameter `BRISC_MOPCFG_ADDR(t, i)`: the address at which BRISC reaches `MopCfg[t][i]`
(R9; spec/20_memory.md R54; log 21). -/
opaque briscMopCfgAddr : ThreadId → Fin 9 → Word

/-- Free value: the agent that moves at the k-th turn the schedule list does not fix
(R9 `MERGE_ORDER`; spec/92_eei_decisions.md D12; log 12). -/
opaque freeAgent : Nat → Agent

/-- Free value: bits 12:2 and 31:15 of the k-th drawing CSR read, read as CSR 0xBC0
(spec/10_state.md R36, R37 and open parameter `QSTATUS_BITS_2_12`; log 11). -/
opaque qstatusOther : Nat → Word

/-- Free value: what `ReplayBusy[t]` reads as, at the k-th drawing CSR read, while thread t has an
unfinished recording (spec/10_state.md R33; log 9). Bit 0 is T0, bit 1 T1, bit 2 T2. -/
opaque recordingBusy : Nat → BitVec 3

/-- Free value: what the k-th drawing CSR read returns, read as CSR 0x7C0
(spec/93_implementation_defined.md U20; log 4). -/
opaque gatherCsrValue : Nat → Word

/-- The 24 low bits of the macro value `TT_OP_NOP`, which the spec does not give
(spec/42_passthrough_and_composition.md R191; log 29). -/
opaque ttOpNopPayload : BitVec 24

/-- The level of CSR 0x7C0 bit 18 that disables gathering, which the spec does not give
(spec/10_state.md R38; log 29). -/
opaque gatheringOffLevel : Bool

end Config

end Sys2Proof
end

