-- ==== Sys2Proof/Syntax.lean ====
section
/-! DEFINITION. The instructions: one constructor per row of spec/opcode_table.json. Every bit of the
word is kept, the reserved and unused ones too, since a word that passes a unit, or is recorded, is
carried whole (spec/30_encoding.md R80 to R84). -/

namespace Sys2Proof

/-- Bit 23 of MOP (spec/30_encoding.md R81). -/
inductive Template where
  /-- 0: Template 0, the unpack zero-mask loop -/
  | unpackZeroMask
  /-- 1: Template 1, the double-nested loop -/
  | doubleLoop
deriving DecidableEq, Repr, Inhabited

/-- A Tensix instruction word as the two expanders see it. -/
inductive Instr where
  /-- MOP, opcode 0x01 (R81) -/
  | mop (template : Template) (count1 : BitVec 7) (maskLo : BitVec 16)
  /-- NOP, opcode 0x02 (R84) -/
  | nop (payload : BitVec 24)
  /-- MOP_CFG, opcode 0x03 (R82) -/
  | mopCfg (reserved : BitVec 8) (maskHi : BitVec 16)
  /-- REPLAY, opcode 0x04 (R83): `execWhileLoading` is Exec, `loadMode` is Load -/
  | replay (startIdx : BitVec 10) (len : BitVec 10) (unlisted : BitVec 2) (execWhileLoading : Bool) (loadMode : Bool)
  /-- RESOURCEDECL, opcode 0x05 (R84) -/
  | resourcedecl (payload : BitVec 24)
  /-- DMANOP, opcode 0x60 (R84) -/
  | dmanop (payload : BitVec 24)
  /-- SFPNOP, opcode 0x8F (R84) -/
  | sfpnop (payload : BitVec 24)
  /-- OTHER: every other opcode byte (R84, R91) -/
  | other (opcode : BitVec 8) (payload : BitVec 24)
deriving DecidableEq, Repr, Inhabited

end Sys2Proof
end

