-- ==== Sys2Proof/WellFormed.lean ====
section
/-! DEFINITION. Well-formed instructions. Every field has the width of its bits, so the one check is that
OTHER is not an opcode byte another row owns (spec/30_encoding.md R91; the table's OTHER row, "lowest
priority"). -/

namespace Sys2Proof

/-- The opcode bytes the spec names (R91). -/
def namedOpcodes : List (BitVec 8) := [0x01, 0x02, 0x03, 0x04, 0x05, 0x60, 0x8F]

/-- An instruction that stands for exactly one word, and that word for it. -/
def Instr.wf : Instr → Bool
  | .other opcode _ => !namedOpcodes.contains opcode
  | .mop _ _ _ => true
  | .nop _ => true
  | .mopCfg _ _ => true
  | .replay _ _ _ _ _ => true
  | .resourcedecl _ => true
  | .dmanop _ => true
  | .sfpnop _ => true

/-- `Instr.wf` as a proposition. -/
abbrev Instr.WellFormed (i : Instr) : Prop := i.wf = true

end Sys2Proof
end

