-- ==== Sys2Proof/Decode.lean ====
section
/-! DEFINITION. Decoding and encoding of instruction words (spec/30_encoding.md R80 to R93), and the
`.ttinsn` rotation (R100). -/

namespace Sys2Proof

/-- `opcode(w) = w[31:24]` (R80). -/
def opcodeOf (w : Word) : BitVec 8 := w.extractLsb' 24 8

/-- The 24 bits below the opcode (R84). -/
def payloadOf (w : Word) : BitVec 24 := w.extractLsb' 0 24

/-- Bit 23 of a MOP (R81). -/
def templateOfBit : Bool → Template
  | false => .unpackZeroMask
  | true => .doubleLoop

/-- The bit 23 a template stands for (R81). -/
def templateBit : Template → Bool
  | .unpackZeroMask => false
  | .doubleLoop => true

/-- The fields of a MOP word (R81). -/
def decodeMop (w : Word) : Instr :=
  .mop (templateOfBit (w.getLsbD 23)) (w.extractLsb' 16 7) (w.extractLsb' 0 16)

/-- The fields of a MOP_CFG word (R82). -/
def decodeMopCfg (w : Word) : Instr :=
  .mopCfg (w.extractLsb' 16 8) (w.extractLsb' 0 16)

/-- The fields of a REPLAY word (R83). -/
def decodeReplay (w : Word) : Instr :=
  .replay (w.extractLsb' 14 10) (w.extractLsb' 4 10) (w.extractLsb' 2 2) (w.getLsbD 1) (w.getLsbD 0)

/-- The instruction a word stands for. No word is refused: "No encoding is illegal for the expanders"
(R92); the rows are told apart by the opcode byte alone (R91). -/
def decode (w : Word) : Instr :=
  if opcodeOf w = 0x01#8 then decodeMop w
  else if opcodeOf w = 0x02#8 then .nop (payloadOf w)
  else if opcodeOf w = 0x03#8 then decodeMopCfg w
  else if opcodeOf w = 0x04#8 then decodeReplay w
  else if opcodeOf w = 0x05#8 then .resourcedecl (payloadOf w)
  else if opcodeOf w = 0x60#8 then .dmanop (payloadOf w)
  else if opcodeOf w = 0x8F#8 then .sfpnop (payloadOf w)
  else .other (opcodeOf w) (payloadOf w)

/-- A field's bits at their place in a word, `lo` being the field's lowest bit. -/
def fieldAt {n : Nat} (field : BitVec n) (lo : Nat) : Word := field.setWidth 32 <<< lo

/-- The word of an instruction (R80 to R84). -/
def encode : Instr → Word
  | .mop template count1 maskLo =>
      fieldAt 0x01#8 24 ||| fieldAt (BitVec.ofBool (templateBit template)) 23 ||| fieldAt count1 16 ||| fieldAt maskLo 0
  | .nop payload => fieldAt 0x02#8 24 ||| fieldAt payload 0
  | .mopCfg reserved maskHi => fieldAt 0x03#8 24 ||| fieldAt reserved 16 ||| fieldAt maskHi 0
  | .replay startIdx len unlisted execWhileLoading loadMode =>
      fieldAt 0x04#8 24 ||| fieldAt startIdx 14 ||| fieldAt len 4 ||| fieldAt unlisted 2
        ||| fieldAt (BitVec.ofBool execWhileLoading) 1 ||| fieldAt (BitVec.ofBool loadMode) 0
  | .resourcedecl payload => fieldAt 0x05#8 24 ||| fieldAt payload 0
  | .dmanop payload => fieldAt 0x60#8 24 ||| fieldAt payload 0
  | .sfpnop payload => fieldAt 0x8F#8 24 ||| fieldAt payload 0
  | .other opcode payload => fieldAt opcode 24 ||| fieldAt payload 0

/-- Why a row of bits is not decoded. -/
inductive DecodeError where
  /-- an instruction is one 32-bit word (R80): the bits given do not fit in one -/
  | notOneWord (nbits : Nat)
deriving DecidableEq, Repr

/-- Decoding of `nbits` bits given as a number, the bits above them zero (log 33). -/
def decodeBits (nbits w : Nat) : Except DecodeError Instr :=
  if nbits ≤ 32 ∧ w < 2 ^ 32 then .ok (decode (BitVec.ofNat 32 w)) else .error (.notOneWord nbits)

/-- The instruction the decoder reads from a row of spec/opcode_table.json. -/
def decodeTableWord (nbits w : Nat) : Option Instr :=
  match decodeBits nbits w with
  | .ok i => some i
  | .error _ => none

/-- `encoded = rotl32(tensix_word, 2)`: the `.ttinsn` form of a word (R100). -/
def ttinsnEncode (w : Word) : Word := (w <<< 2) ||| (w >>> 30)

/-- `tensix_word = rotr32(encoded, 2)` (R100). -/
def ttinsnDecode (e : Word) : Word := (e >>> 2) ||| (e <<< 30)

end Sys2Proof
end

