-- ==== Sys2Proof/Machine/State.lean ====
section
/-! DEFINITION. The state of the machine as plain data, everything of spec/10_state.md R41 and the
actions of the four cores (spec/20_memory.md R50); the reasons a step can stop (spec/60_exceptions.md
R212); the state at the start of a run (R44). -/

namespace Sys2Proof.Machine

/-- The nine MopCfg registers of a thread (R24). -/
abbrev MopCfg := Vector Word 9

/-- The 32 replay slots of a thread (R29). -/
abbrev ReplayBuf := Vector Word 32

/-- A recording in progress: `Rec[t]` when it is not None (R31). -/
structure Recording where
  base : Fin 32
  i    : Nat
  n    : Nat
  exec : Bool
deriving DecidableEq, Repr

/-- The state of one thread (R41). -/
structure ThreadState where
  /-- `Fifo[t]`, head first (R23) -/
  fifo        : List Word
  /-- `MopCfg[t][0..8]` (R24, R25) -/
  mopCfg      : MopCfg
  /-- `MaskHi[t]` (R26) -/
  maskHi      : BitVec 16
  /-- `MopPending[t]`: the words of the current expansion not yet emitted (R27) -/
  mopPending  : List Word
  /-- `MopBusy[t]` (R28) -/
  mopBusy     : Bool
  /-- `PostMop[t]`, head first (R34) -/
  postMop     : List Word
  /-- `ReplayBuf[t][0..31]` (R29) -/
  replayBuf   : ReplayBuf
  /-- `Rec[t]` (R31) -/
  recording   : Option Recording
  /-- `PlayPending[t]`: the words of the current playback not yet emitted (R32) -/
  playPending : List Word
  /-- `ReplayBusy[t]` outside a recording (R33) -/
  replayBusy  : Bool
  /-- `Out[t]`, oldest first (R34) -/
  out         : List Word
  /-- the model's own marks: which MopCfg registers have been written in this run (log 28) -/
  cfgWritten  : Vector Bool 9
  /-- the model's own marks: which replay slots have been written in this run (log 28) -/
  slotWritten : Vector Bool 32
deriving DecidableEq, Repr

/-- A load, store or CSR access of a core (R50). -/
inductive CoreAccess where
  /-- `MemWrite(addr, width, value)` -/
  | store (addr : Word) (width : Nat) (value : Word)
  /-- `MemRead(addr, width)` -/
  | load (addr : Word) (width : Nat)
  /-- `CsrRead(csr)` -/
  | csrRead (csr : Nat)
  /-- a write of a CSR -/
  | csrWrite (csr : Nat) (value : Word)
  /-- a use of the "TTSync CSR", whose number is not known (R39) -/
  | ttSync
deriving DecidableEq, Repr

/-- What TRISC_t can do to the expanders (R50). -/
inductive TriscAction where
  /-- `push(t, word)` into its own thread's FIFO -/
  | push (word : Word)
  /-- a `.ttinsn` word of its instruction stream: the push of the un-rotated word (spec/30_encoding.md R100) -/
  | ttinsn (encoded : Word)
  /-- the store of `value` to `PC_BUF_BASE + 8` (R60) -/
  | mopSync (value : Word)
  /-- any other access -/
  | access (a : CoreAccess)
deriving DecidableEq, Repr

/-- What BRISC can do to the expanders (R50). -/
inductive BriscAction where
  /-- `push_post_mop(t, word)` (spec/42_passthrough_and_composition.md R199) -/
  | pushPostMop (t : ThreadId) (word : Word)
  /-- `BriscWriteMopCfg(t, i, value)` (R54) -/
  | writeMopCfg (t : ThreadId) (i : Fin 9) (value : Word)
  /-- any other access -/
  | access (a : CoreAccess)
deriving DecidableEq, Repr

/-- What a core holds of the expanders' interface: CSR 0x7C0 bit 18 (R38), and the model's own record of the
values its reads returned, oldest first (log 20). -/
structure CorePort where
  gathering : Bool
  reads     : List Word
deriving DecidableEq, Repr

/-- A TRISC: the actions it has still to do, in program order (R50, R64), and its port. -/
structure TriscState where
  program : List TriscAction
  port    : CorePort
deriving DecidableEq, Repr

/-- BRISC: the actions it has still to do, in program order, and its port. -/
structure BriscState where
  program : List BriscAction
  port    : CorePort
deriving DecidableEq, Repr

/-- The machine. -/
structure State where
  th0      : ThreadState
  th1      : ThreadState
  th2      : ThreadState
  trisc0   : TriscState
  trisc1   : TriscState
  trisc2   : TriscState
  brisc    : BriscState
  /-- the model's own: the thread and unit at which `exec` runs its instruction (log 26) -/
  site     : Site
  /-- the model's own: the turns given to agents, first first (log 12) -/
  schedule : List Agent
  /-- the model's own: how many turns the free schedule has given (log 12) -/
  turns    : Nat
  /-- the model's own: how many free values CSR reads have drawn (log 11) -/
  draws    : Nat
deriving DecidableEq, Repr

/-- Situations whose behaviour the source calls undefined (R212). -/
inductive Fault where
  /-- a core loads from 0xFFB80000 .. 0xFFB80023: raised by `performLoad` (spec/20_memory.md R55). Safe: "undefined behavior", nothing is claimed of what follows. -/
  | mopCfgRead
  /-- a store to `MopCfg[t][i]` takes effect while `MopBusy[t]`: raised by `writeMopCfg` (spec/20_memory.md R58). Safe: neither the old nor the new value is claimed. -/
  | mopCfgWriteDuringExpansion
deriving DecidableEq, Repr

/-- Actions the spec has no meaning for (R212). -/
inductive Refusal where
  /-- an arm of `exec` without a meaning; safe, and no arm of this model is one -/
  | notModelled (mnemonic : String)
  /-- a store in the MopCfg window, or to a described register, that is not 4 bytes wide and aligned: raised by `performStore` (spec/20_memory.md R56). Safe. -/
  | mopCfgAccessShape
  /-- a load or store at an address the spec does not describe: raised by `performStore` and `performLoad` (spec/20_memory.md R52). Safe. -/
  | unknownAddress
  /-- BRISC stores to the TRISCs' MopCfg window: raised by `performStore` (spec/20_memory.md R54). Safe. -/
  | briscMopCfgWindow
  /-- BRISC reads CSR 0xBC0: raised by `performCsrRead` (spec/10_state.md R37). Safe. -/
  | briscQstatusRead
  /-- a core uses the "TTSync CSR": raised by `performAccess` and the CSR operations (spec/10_state.md R39). Safe. -/
  | ttSyncCsr
  /-- a CSR access the spec does not describe: raised by the CSR operations (spec/00_scope.md R6; log 23). Safe. -/
  | csrNotDescribed
  /-- a word with opcode 0x01, 0x03 or 0x04 would be delivered to `Out[t]`: raised by `deliver` (spec/30_encoding.md R93; log 14). Safe. -/
  | expanderOpcodeDownstream
deriving DecidableEq, Repr

/-- Why a core's action does not complete yet: it waits for a step of another agent (R212). -/
inductive Hold where
  /-- `push(t, w)` with 32 words in `Fifo[t]` (R23); lifted by a take step of MOP Expander t -/
  | fifoFull
  /-- the `mop_sync` store while the MOP Expander is not idle (spec/20_memory.md R60); lifted by its steps -/
  | mopSync
deriving DecidableEq, Repr

/-- How a run stands (spec/42_passthrough_and_composition.md R204). -/
inductive RunStatus where
  /-- some thread or core has something left to do -/
  | running
  /-- the run has ended -/
  | final
  /-- the run has come to rest with an unfinished recording, `stuck RecordingIncomplete` -/
  | stuckRecordingIncomplete
deriving DecidableEq, Repr

/-- The outcomes R212 marks optional. They do not stop this model; a claim can ask for their absence (log 13, 24, 28, 35, 36). -/
inductive Finding where
  /-- an expansion reads a MopCfg register never written in this run (R44) -/
  | unwrittenMopCfg (i : Fin 9)
  /-- a playback reads a slot never recorded in this run (spec/41_replay.md R171) -/
  | unwrittenReplaySlot (k : Fin 32)
  /-- MOP_CFG bits 23:16 or REPLAY bits 3:2 not zero (spec/30_encoding.md R90) -/
  | reservedBits
  /-- a Template 0 MOP with Count1 > 31 (spec/40_mop.md R127) -/
  | mopT0CountBeyondMask
deriving DecidableEq, Repr

/-- What a step, an instruction or an action answers. -/
abbrev Result := Host.Outcome State Fault Refusal

/-- A thread at the start of a run (spec/10_state.md R44; MopCfg and replay slots: log 1, 2; the rest: log 3). -/
def ThreadState.reset : ThreadState where
  fifo        := []
  mopCfg      := Vector.replicate 9 0
  maskHi      := 0
  mopPending  := []
  mopBusy     := false
  postMop     := []
  replayBuf   := Vector.replicate 32 0
  recording   := none
  playPending := []
  replayBusy  := false
  out         := []
  cfgWritten  := Vector.replicate 9 false
  slotWritten := Vector.replicate 32 false

/-- A core's port at the start of a run (CSR 0x7C0 bit 18: DESIGN CHOICE, log 4). -/
def CorePort.reset : CorePort where
  gathering := false
  reads     := []

/-- The machine at the start of a run (spec/10_state.md R44, spec/70_reset_and_hazards.md R240). -/
def State.reset : State where
  th0      := ThreadState.reset
  th1      := ThreadState.reset
  th2      := ThreadState.reset
  trisc0   := { program := [], port := CorePort.reset }
  trisc1   := { program := [], port := CorePort.reset }
  trisc2   := { program := [], port := CorePort.reset }
  brisc    := { program := [], port := CorePort.reset }
  site     := { thread := .t0, stage := .mopExpander }
  schedule := []
  turns    := 0
  draws    := 0

end Sys2Proof.Machine
end

