-- ==== Sys2Proof/Machine/Operands.lean ====
section
/-! DEFINITION. Operand assembly: what the units compute from an instruction's fields and from MopCfg
(spec/30_encoding.md R85 to R89, spec/10_state.md R25, spec/40_mop.md R123, R135), and the address of a
MopCfg register (spec/20_memory.md R52). -/

namespace Sys2Proof.Machine

/-- `IsNop`: the opcode byte is 0x02, whatever the other bits (R123). -/
def isNop (w : Word) : Bool := opcodeOf w == 0x02#8

/-- `Mask = (MaskHi[t] << 16) | MaskLo` (R85, R125). -/
def zeroMask (maskHi maskLo : BitVec 16) : Word := (maskHi.setWidth 32 <<< 16) ||| maskLo.setWidth 32

/-- Template 0's number of iterations, `Count1 + 1` (R85). -/
def template0Iterations (count1 : BitVec 7) : Nat := count1.toNat + 1

/-- `HasB`, bit 0 of MopCfg[1] (R25, R126). -/
def hasB (cfg : MopCfg) : Bool := cfg[1].getLsbD 0

/-- `HasA123`, bit 1 of MopCfg[1] (R25, R126). -/
def hasA123 (cfg : MopCfg) : Bool := cfg[1].getLsbD 1

/-- A loop count: `register & 127` (R135, R143). -/
def loopCount (register : Word) : Nat := (register &&& 127).toNat

/-- REPLAY's `Index`: the low 5 bits of start_idx (R87). -/
def replayIndex (startIdx : BitVec 10) : Fin 32 := ⟨startIdx.toNat % 32, Nat.mod_lt _ (by decide)⟩

/-- REPLAY's number of words `n`: the low 6 bits of len, 0 meaning 64 (R88). -/
def replayCount (len : BitVec 10) : Nat :=
  if len.toNat % 64 = 0 then 64 else len.toNat % 64

/-- The slot of the i-th word: `(Index + i) mod 32` (R29, R170). -/
def replaySlot (base : Fin 32) (i : Nat) : Fin 32 := ⟨(base.val + i) % 32, Nat.mod_lt _ (by decide)⟩

/-- An opcode one of the expanders interprets: 0x01, 0x03 or 0x04 (R91, R93). -/
def isExpanderOpcode (w : Word) : Bool :=
  opcodeOf w == 0x01#8 || opcodeOf w == 0x03#8 || opcodeOf w == 0x04#8

/-- The addresses 0xFFB80000 .. 0xFFB80023 (R51, R55). -/
def inMopCfgWindow (addr : Word) : Bool :=
  decide (Config.mopCfgBase.toNat ≤ addr.toNat ∧ addr.toNat < Config.mopCfgBase.toNat + 4 * Config.mopCfgCount)

/-- The register at an address of the window, `(addr - 0xFFB80000) / 4` (R52). -/
def mopCfgIndex (addr : Word) : Fin 9 := Fin.ofNat 9 ((addr.toNat - Config.mopCfgBase.toNat) / 4)

/-- The one access shape the spec describes: 4 bytes at a multiple of 4 (R56). -/
def wordShape (addr : Word) (width : Nat) : Bool := decide (width = 4 ∧ addr.toNat % 4 = 0)

/-- The registers BRISC could reach, in the order they are looked up (R54; log 21). -/
def briscTargets : List (ThreadId × Fin 9) :=
  [ThreadId.t0, .t1, .t2].flatMap fun t => (List.finRange 9).map fun i => (t, i)

/-- The register, if any, whose `BRISC_MOPCFG_ADDR` an address is (R9, R54; log 21). -/
def briscMopCfgTarget (addr : Word) : Option (ThreadId × Fin 9) :=
  briscTargets.find? fun p => Config.briscMopCfgAddr p.1 p.2 == addr

end Sys2Proof.Machine
end

