-- ==== Sys2Proof/Machine/Ops.lean ====
section
/-! DEFINITION. The named operations every meaning, unit step and core action is built from: access to a
thread and to a core's port, the movements of words between the queues, the register writes, the
recording, the playback, and the delivery to `Out[t]`.

The hardware has no exception (spec/60_exceptions.md R210, R214), so there is no operation that takes one
or returns from one. -/

namespace Sys2Proof.Machine

/-- The state of thread t. -/
def State.thread (s : State) : ThreadId → ThreadState
  | .t0 => s.th0
  | .t1 => s.th1
  | .t2 => s.th2

/-- The machine with thread t replaced. -/
def State.setThread (s : State) (t : ThreadId) (th : ThreadState) : State :=
  match t with
  | .t0 => { s with th0 := th }
  | .t1 => { s with th1 := th }
  | .t2 => { s with th2 := th }

/-- TRISC_t. -/
def State.trisc (s : State) : ThreadId → TriscState
  | .t0 => s.trisc0
  | .t1 => s.trisc1
  | .t2 => s.trisc2

/-- The machine with TRISC_t replaced. -/
def State.setTrisc (s : State) (t : ThreadId) (c : TriscState) : State :=
  match t with
  | .t0 => { s with trisc0 := c }
  | .t1 => { s with trisc1 := c }
  | .t2 => { s with trisc2 := c }

/-- The port of a core. -/
def State.port (s : State) : CoreId → CorePort
  | .trisc t => (s.trisc t).port
  | .brisc => s.brisc.port

/-- The machine with a core's port replaced. -/
def State.setPort (s : State) (c : CoreId) (p : CorePort) : State :=
  match c with
  | .trisc t => s.setTrisc t { s.trisc t with port := p }
  | .brisc => { s with brisc := { s.brisc with port := p } }

/-- The machine with a unit about to run an instruction (log 26). -/
def State.setSite (s : State) (site : Site) : State := { s with site := site }

/-- The machine with TRISC_t's remaining actions replaced. -/
def State.setTriscProgram (s : State) (t : ThreadId) (program : List TriscAction) : State :=
  s.setTrisc t { s.trisc t with program := program }

/-- The machine with BRISC's remaining actions replaced. -/
def State.setBriscProgram (s : State) (program : List BriscAction) : State :=
  { s with brisc := { s.brisc with program := program } }

/-! Movements within one thread. -/

/-- What remains of the FIFO after a take (R23). -/
def ThreadState.setFifo (th : ThreadState) (rest : List Word) : ThreadState := { th with fifo := rest }

/-- What remains of PostMop after a take (R34). -/
def ThreadState.setPostMop (th : ThreadState) (rest : List Word) : ThreadState := { th with postMop := rest }

/-- `MaskHi[t] <- v` (R26, R122). -/
def ThreadState.setMaskHi (th : ThreadState) (v : BitVec 16) : ThreadState := { th with maskHi := v }

/-- `push(t, w)`: `w` at the tail of the FIFO (R23). -/
def ThreadState.pushFifo (th : ThreadState) (w : Word) : ThreadState :=
  { th with fifo := th.fifo ++ [w] }

/-- A word enters `PostMop[t]`: emitted or passed by the MOP Expander, or pushed by BRISC (R34, R120, R199). -/
def ThreadState.pushPostMop (th : ThreadState) (w : Word) : ThreadState :=
  { th with postMop := th.postMop ++ [w] }

/-- `MopCfg[t][i] <- v`, all 32 bits (R24, R52). -/
def ThreadState.setMopCfg (th : ThreadState) (i : Fin 9) (v : Word) : ThreadState :=
  { th with mopCfg := th.mopCfg.set i v, cfgWritten := th.cfgWritten.set i true }

/-- The MOP Expander has taken a MOP: its whole expansion waits, and `MopBusy[t]` is true if there is any of it
(R27, R28; spec/42_passthrough_and_composition.md R201). -/
def ThreadState.startExpansion (th : ThreadState) (expansion : List Word) : ThreadState :=
  { th with mopPending := expansion, mopBusy := !expansion.isEmpty }

/-- The MOP Expander's `emit` step: the first pending word moves to `PostMop[t]`; `MopBusy[t]` falls with the
last one (R201). -/
def ThreadState.emitMop (th : ThreadState) : ThreadState :=
  match th.mopPending with
  | [] => th
  | w :: rest => { th with mopPending := rest, mopBusy := !rest.isEmpty, postMop := th.postMop ++ [w] }

/-- A record-mode REPLAY: the unit enters recording (spec/41_replay.md R163). -/
def ThreadState.startRecording (th : ThreadState) (base : Fin 32) (n : Nat) (exec : Bool) : ThreadState :=
  { th with recording := some { base := base, i := 0, n := n, exec := exec } }

/-- `Rec[t]` after one more captured word (spec/41_replay.md R161). -/
def Recording.advance (r : Recording) : Option Recording :=
  if r.i + 1 = r.n then none else some { r with i := r.i + 1 }

/-- One captured word: it is stored in its slot and the recording advances (spec/41_replay.md R161, R164). -/
def ThreadState.capture (th : ThreadState) (r : Recording) (w : Word) : ThreadState :=
  { th with
    replayBuf   := th.replayBuf.set (replaySlot r.base r.i) w
    slotWritten := th.slotWritten.set (replaySlot r.base r.i) true
    recording   := r.advance }

/-- The words a playback emits: `ReplayBuf[t][(base + i) mod 32]` for i = 0 .. n-1 (spec/41_replay.md R167). -/
def playbackWords (buf : ReplayBuf) (base : Fin 32) (n : Nat) : List Word :=
  (List.range n).map fun i => buf[replaySlot base i]

/-- A playback REPLAY: its words wait and `ReplayBusy[t]` is true (R33, spec/41_replay.md R167, R201). -/
def ThreadState.startPlayback (th : ThreadState) (base : Fin 32) (n : Nat) : ThreadState :=
  { th with
    playPending := playbackWords th.replayBuf base n
    replayBusy  := !(playbackWords th.replayBuf base n).isEmpty }

/-- The first pending word of a playback leaves; `ReplayBusy[t]` falls with the last one (R201). -/
def ThreadState.popPlayback (th : ThreadState) (rest : List Word) : ThreadState :=
  { th with playPending := rest, replayBusy := !rest.isEmpty }

/-- A word enters `Out[t]` (R34). -/
def ThreadState.appendOut (th : ThreadState) (w : Word) : ThreadState :=
  { th with out := th.out ++ [w] }

/-! Movements of the machine. -/

/-- The Replay Expander of thread t delivers a word to `Out[t]`. The spec has no meaning for a word with an
expander's opcode there (spec/30_encoding.md R93; log 14). -/
def deliver (t : ThreadId) (w : Word) (s : State) : Result :=
  if isExpanderOpcode w then .refused .expanderOpcodeDownstream
  else .next (s.setThread t ((s.thread t).appendOut w))

/-- The Replay Expander of thread t captures a word into the recording `r`, and delivers it too when Exec is 1
(spec/41_replay.md R161, R164). -/
def captureWord (t : ThreadId) (r : Recording) (w : Word) (s : State) : Result :=
  if r.exec then deliver t w (s.setThread t ((s.thread t).capture r w))
  else .next (s.setThread t ((s.thread t).capture r w))

/-- What the Replay Expander of thread t does with a word it takes: a recording captures it undecoded, otherwise
`interpret` says (spec/41_replay.md R161, R165). -/
def captureOr (t : ThreadId) (w : Word) (interpret : State → Result) (s : State) : Result :=
  match (s.thread t).recording with
  | some r => captureWord t r w s
  | none => interpret s

/-- A word neither unit interprets where it stands: the MOP Expander passes it down, the Replay Expander
delivers it, or captures it while recording (spec/42_passthrough_and_composition.md R190). -/
def passThrough (w : Word) (s : State) : Result :=
  match s.site.stage with
  | .mopExpander => .next (s.setThread s.site.thread ((s.thread s.site.thread).pushPostMop w))
  | .replayExpander => captureOr s.site.thread w (deliver s.site.thread w) s

/-- The MOP Expander's `emit` step (R201). -/
def mopEmit (t : ThreadId) (s : State) : State :=
  s.setThread t (s.thread t).emitMop

/-- The Replay Expander's `emit` step: the first pending word of the playback is delivered (R201). -/
def replayEmit (t : ThreadId) (s : State) : Result :=
  match (s.thread t).playPending with
  | [] => .next s
  | w :: rest => deliver t w (s.setThread t ((s.thread t).popPlayback rest))

/-- A store to `MopCfg[t][i]` takes effect: a fault while thread t's expansion is in progress
(spec/20_memory.md R58). -/
def writeMopCfg (t : ThreadId) (i : Fin 9) (v : Word) (s : State) : Result :=
  if (s.thread t).mopBusy then .fault .mopCfgWriteDuringExpansion
  else .next (s.setThread t ((s.thread t).setMopCfg i v))

/-- A core's read returns a value (log 20). -/
def returnRead (c : CoreId) (v : Word) (s : State) : State :=
  s.setPort c { s.port c with reads := (s.port c).reads ++ [v] }

/-- A CSR read has drawn its free values (log 11). -/
def State.countDraw (s : State) : State := { s with draws := s.draws + 1 }

end Sys2Proof.Machine
end

