-- ==== Sys2Proof/Machine/Flags.lean ====
section
/-! DEFINITION. The status a core can see: the busy flags as CSR 0xBC0 shows them (spec/10_state.md R33,
R35 to R37), whether the MOP Expander is idle (spec/20_memory.md R60), and whether a thread, or the
machine, has come to rest (spec/42_passthrough_and_composition.md R204). -/

namespace Sys2Proof.Machine

/-- The bit of the free value that stands for a thread (log 9). -/
def threadBit : ThreadId → Nat
  | .t0 => 0
  | .t1 => 1
  | .t2 => 2

/-- `ReplayBusy[t]` as a read shows it: any value while a recording is incomplete (R33; log 9). -/
def replayBusySeen (s : State) (t : ThreadId) : Bool :=
  match (s.thread t).recording with
  | none => (s.thread t).replayBusy
  | some _ => (Config.recordingBusy s.draws).getLsbD (threadBit t)

/-- Bit 13: any thread's replay busy (R35). -/
def anyReplayBusy (s : State) : Bool :=
  replayBusySeen s .t0 || replayBusySeen s .t1 || replayBusySeen s .t2

/-- Bit 14: any thread's MOP busy (R35). -/
def anyMopBusy (s : State) : Bool :=
  s.th0.mopBusy || s.th1.mopBusy || s.th2.mopBusy

/-- The value TRISC_t reads from CSR 0xBC0: bits 0, 1, 13, 14 as R35 says, bits 12:2 and 31:15 any value
(R36, R37; log 11). -/
def qstatus (s : State) (t : ThreadId) : Word :=
  (Config.qstatusOther s.draws &&& 0xFFFF9FFC)
    ||| fieldAt (BitVec.ofBool (replayBusySeen s t)) 0
    ||| fieldAt (BitVec.ofBool (s.thread t).mopBusy) 1
    ||| fieldAt (BitVec.ofBool (anyReplayBusy s)) 13
    ||| fieldAt (BitVec.ofBool (anyMopBusy s)) 14

/-- The MOP Expander is idle, as `mop_sync` waits for it: `MopBusy[t] = false` and `Fifo[t]` empty (R60; log 5). -/
def mopIdle (th : ThreadState) : Bool := !th.mopBusy && th.fifo.isEmpty

/-- A thread is quiescent: nothing in its queues (R204). -/
def ThreadState.quiescent (th : ThreadState) : Bool :=
  th.fifo.isEmpty && th.mopPending.isEmpty && th.postMop.isEmpty && th.playPending.isEmpty

/-- No core has a further action (R204). -/
def coresDone (s : State) : Bool :=
  s.trisc0.program.isEmpty && s.trisc1.program.isEmpty && s.trisc2.program.isEmpty && s.brisc.program.isEmpty

/-- A run has ended when all three threads are quiescent and the cores have no further action (R204). -/
def runEnded (s : State) : Bool :=
  s.th0.quiescent && s.th1.quiescent && s.th2.quiescent && coresDone s

/-- Some thread has an unfinished recording. -/
def recordingOpen (s : State) : Bool :=
  s.th0.recording.isSome || s.th1.recording.isSome || s.th2.recording.isSome

/-- How the run stands (R204; log 16). -/
def runStatus (s : State) : RunStatus :=
  if runEnded s then (if recordingOpen s then .stuckRecordingIncomplete else .final) else .running

end Sys2Proof.Machine
end

