-- ==== Sys2Proof/Machine/Cores.lean ====
section
/-! DEFINITION. What the RISC-V cores do to the expanders: the actions of spec/20_memory.md R50, one at a time in
program order (R64). An action that must wait answers `.error` with its hold (spec/60_exceptions.md R212). -/

namespace Sys2Proof.Machine

/-- `push(t, w)`: the word enters `Fifo[t]` at the tail, or the pushing core is held while it is full (R23). -/
def pushWord (t : ThreadId) (w : Word) (s : State) : Except Hold Result :=
  if (s.thread t).fifo.length < Config.fifoDepth then .ok (.next (s.setThread t ((s.thread t).pushFifo w)))
  else .error .fifoFull

/-- `mop_sync`: the store completes only when the MOP Expander is idle; the stored value is used by nothing (R60). -/
def performMopSync (t : ThreadId) (s : State) : Except Hold Result :=
  if mopIdle (s.thread t) then .ok (.next s) else .error .mopSync

/-- A store in the MopCfg window: shape, then issuing core, then overlap with an expansion, then the update
(R52, R53, R54, R56, spec/60_exceptions.md R213). -/
def storeMopCfgWindow (c : CoreId) (addr : Word) (width : Nat) (value : Word) (s : State) : Result :=
  if wordShape addr width then
    match c with
    | .trisc t => writeMopCfg t (mopCfgIndex addr) value s
    | .brisc => .refused .briscMopCfgWindow
  else .refused .mopCfgAccessShape

/-- A TRISC's store outside the window: `PC_BUF_BASE + 8` is the blocking store, of the one shape R56 admits; nothing
else is described (R52, R56, R60; log 22). -/
def storeTriscOutside (t : ThreadId) (addr : Word) (width : Nat) (s : State) : Except Hold Result :=
  if addr = Config.mopSyncAddr then
    if wordShape addr width then performMopSync t s else .ok (.refused .mopCfgAccessShape)
  else .ok (.refused .unknownAddress)

/-- A BRISC store outside the window: it reaches `MopCfg[t][i]` where the address is `BRISC_MOPCFG_ADDR(t, i)`, with
R56's shape asked there too (log 18); nothing else is described (R54; log 21). -/
def storeBriscOutside (addr : Word) (width : Nat) (value : Word) (s : State) : Result :=
  match briscMopCfgTarget addr with
  | some (t, i) => if wordShape addr width then writeMopCfg t i value s else .refused .mopCfgAccessShape
  | none => .refused .unknownAddress

/-- `MemWrite(addr, width, value)` by a core. -/
def performStore (c : CoreId) (addr : Word) (width : Nat) (value : Word) (s : State) : Except Hold Result :=
  if inMopCfgWindow addr then .ok (storeMopCfgWindow c addr width value s)
  else
    match c with
    | .trisc t => storeTriscOutside t addr width s
    | .brisc => .ok (storeBriscOutside addr width value s)

/-- `MemRead(addr, width)` by a core: in the window it is undefined behaviour (R55), elsewhere nothing is
described (spec/93_implementation_defined.md U18; log 25). -/
def performLoad (addr : Word) : Result :=
  if inMopCfgWindow addr then .fault .mopCfgRead else .refused .unknownAddress

/-- `CsrRead(csr)` by a core (spec/10_state.md R35 to R39). -/
def performCsrRead (c : CoreId) (csr : Nat) (s : State) : Result :=
  if csr = Config.qstatusCsr then
    match c with
    | .trisc t => .next (returnRead c (qstatus s t) s).countDraw
    | .brisc => .refused .briscQstatusRead
  else if csr = Config.gatherCsr then
    .next (returnRead c (Config.gatherCsrValue s.draws) s).countDraw
  else if csr = Config.ttSyncCsr then .refused .ttSyncCsr
  else .refused .csrNotDescribed

/-- A CSR write by a core: bit 18 of CSR 0x7C0 is kept and has no effect on any rule (spec/10_state.md R38;
log 4, 23). -/
def performCsrWrite (c : CoreId) (csr : Nat) (value : Word) (s : State) : Result :=
  if csr = Config.gatherCsr then
    .next (s.setPort c { s.port c with gathering := value.getLsbD Config.gatherBit })
  else if csr = Config.qstatusCsr then .refused .csrNotDescribed
  else if csr = Config.ttSyncCsr then .refused .ttSyncCsr
  else .refused .csrNotDescribed

/-- A load, store or CSR access of a core. -/
def performAccess (c : CoreId) (a : CoreAccess) (s : State) : Except Hold Result :=
  match a with
  | .store addr width value => performStore c addr width value s
  | .load addr _ => .ok (performLoad addr)
  | .csrRead csr => .ok (performCsrRead c csr s)
  | .csrWrite csr value => .ok (performCsrWrite c csr value s)
  | .ttSync => .ok (.refused .ttSyncCsr)

/-- One action of TRISC_t (R50). -/
def performTrisc (t : ThreadId) (a : TriscAction) (s : State) : Except Hold Result :=
  match a with
  | .push word => pushWord t word s
  | .ttinsn encoded => pushWord t (ttinsnDecode encoded) s
  | .mopSync _ => performMopSync t s
  | .access a => performAccess (.trisc t) a s

/-- One action of BRISC (R50, R54; spec/42_passthrough_and_composition.md R199). -/
def performBrisc (a : BriscAction) (s : State) : Except Hold Result :=
  match a with
  | .pushPostMop t word => .ok (.next (s.setThread t ((s.thread t).pushPostMop word)))
  | .writeMopCfg t i value => .ok (writeMopCfg t i value s)
  | .access a => performAccess .brisc a s

/-- What the next action of a core comes to, done in the machine whose core has moved past it; none where the
core has no further action. -/
def attempt (c : CoreId) (s : State) : Option (Except Hold Result) :=
  match c with
  | .trisc t =>
    match (s.trisc t).program with
    | [] => none
    | a :: rest => some (performTrisc t a (s.setTriscProgram t rest))
  | .brisc =>
    match s.brisc.program with
    | [] => none
    | a :: rest => some (performBrisc a (s.setBriscProgram rest))

/-- Why a core waits, if it does (spec/60_exceptions.md R212). -/
def holdOf (c : CoreId) (s : State) : Option Hold :=
  match attempt c s with
  | some (.error h) => some h
  | some (.ok _) => none
  | none => none

/-- A core's turn: its next action, or nothing where it has none or is held. -/
def coreStep (c : CoreId) (s : State) : Result :=
  match attempt c s with
  | none => .next s
  | some (.error _) => .next s
  | some (.ok r) => r

end Sys2Proof.Machine
end

