-- ==== Sys2Proof/Machine/Mop.lean ====
section
/-! DEFINITION. The MOP Expander's own instructions, MOP and MOP_CFG, and the two templates
(spec/40_mop.md). -/

namespace Sys2Proof.Machine

/-- One iteration of Template 0. A mask bit of 0 selects the real instructions A0, A1, A2, A3, B; a bit of 1
the skip instructions (R126). -/
def template0Iteration (cfg : MopCfg) (maskBit : Bool) : List Word :=
  if maskBit then
    cfg[7] :: (if hasB cfg then [cfg[8]] else [])
  else
    cfg[3] :: ((if hasA123 cfg then [cfg[4], cfg[5], cfg[6]] else []) ++ (if hasB cfg then [cfg[2]] else []))

/-- `ExpandTemplate0`: the mask is shifted right by one in each iteration (R126, R127). -/
def expandTemplate0 (cfg : MopCfg) : (iterations : Nat) → (mask : Word) → List Word
  | 0, _ => []
  | n + 1, mask => template0Iteration cfg (mask.getLsbD 0) ++ expandTemplate0 cfg n (mask >>> 1)

/-- `StartOp` at the start of an outer iteration, skipped if NOP (R141). -/
def startWords (cfg : MopCfg) : List Word :=
  if isNop cfg[2] then [] else [cfg[2]]

/-- `EndOp0` and then `EndOp1` at the end of an outer iteration: EndOp0 skipped if NOP, EndOp1 skipped if it or
EndOp0 is NOP (R141). -/
def endWords (cfg : MopCfg) : List Word :=
  if isNop cfg[3] then [] else cfg[3] :: (if isNop cfg[4] then [] else [cfg[4]])

/-- `LoopOpFlip`: 0 if LoopOp1 is NOP, else `LoopOp ^ LoopOp1` (R136, R138). -/
def loopOpFlip (cfg : MopCfg) : Word :=
  if isNop cfg[6] then 0 else cfg[5] ^^^ cfg[6]

/-- `InnerCount`, doubled if LoopOp1 is not a NOP (R136, R138). -/
def innerCount (cfg : MopCfg) : Nat :=
  if isNop cfg[6] then loopCount cfg[1] else loopCount cfg[1] * 2

/-- `OuterCount` with the hardware bug (R136, R139). -/
def outerCount (cfg : MopCfg) : Nat :=
  if loopCount cfg[0] = 1 ∧ isNop cfg[2] = true ∧ innerCount cfg = 0 ∧ isNop cfg[3] = false
  then loopCount cfg[0] + 128 else loopCount cfg[0]

/-- The inner loop with `remaining` iterations to go and the current LoopOp; `last` stands in the last one. It
answers the words and the LoopOp it leaves (R136, R140). -/
def innerLoop (flip last : Word) : (remaining : Nat) → (loopOp : Word) → List Word × Word
  | 0, loopOp => ([], loopOp)
  | r + 1, loopOp =>
    let tail := innerLoop flip last r (loopOp ^^^ flip)
    ((if r = 0 then last else loopOp) :: tail.1, tail.2)

/-- The outer loop with `remaining` iterations to go: Loop1Last closes every inner loop but the last outer
iteration's, which Loop0Last closes (R136, R140). -/
def outerLoop (cfg : MopCfg) : (remaining : Nat) → (loopOp : Word) → List Word
  | 0, _ => []
  | r + 1, loopOp =>
    let inner := innerLoop (loopOpFlip cfg) (if r = 0 then cfg[7] else cfg[8]) (innerCount cfg) loopOp
    startWords cfg ++ inner.1 ++ endWords cfg ++ outerLoop cfg r inner.2

/-- `ExpandTemplate1` (R136). -/
def expandTemplate1 (cfg : MopCfg) : List Word :=
  outerLoop cfg (outerCount cfg) cfg[5]

/-- The expansion of one MOP (R120, R121). Template 1 ignores Count1, MaskLo and MaskHi (R144). -/
def expandMop (template : Template) (count1 : BitVec 7) (maskLo maskHi : BitVec 16) (cfg : MopCfg) : List Word :=
  match template with
  | .unpackZeroMask => expandTemplate0 cfg (template0Iterations count1) (zeroMask maskHi maskLo)
  | .doubleLoop => expandTemplate1 cfg

/-- MOP (R121). At the MOP Expander it is replaced by its expansion, with MopCfg as it is now (R128). At the
Replay Expander it is an ordinary word (spec/30_encoding.md R93). -/
def execMop (template : Template) (count1 : BitVec 7) (maskLo : BitVec 16) (s : State) : Result :=
  match s.site.stage with
  | .mopExpander =>
    let th := s.thread s.site.thread
    .next (s.setThread s.site.thread (th.startExpansion (expandMop template count1 maskLo th.maskHi th.mopCfg)))
  | .replayExpander => passThrough (encode (.mop template count1 maskLo)) s

/-- MOP_CFG (R122). At the MOP Expander it sets MaskHi and emits nothing; the reserved bits are ignored (R90). At
the Replay Expander it is an ordinary word (spec/30_encoding.md R93). -/
def execMopCfg (reserved : BitVec 8) (maskHi : BitVec 16) (s : State) : Result :=
  match s.site.stage with
  | .mopExpander =>
    .next (s.setThread s.site.thread ((s.thread s.site.thread).setMaskHi maskHi))
  | .replayExpander => passThrough (encode (.mopCfg reserved maskHi)) s

end Sys2Proof.Machine
end

