-- ==== Sys2Proof/Machine/PassThrough.lean ====
section
/-! DEFINITION. The words neither expander interprets: NOP, RESOURCEDECL, DMANOP, SFPNOP and every other
(spec/42_passthrough_and_composition.md R190 to R195). -/

namespace Sys2Proof.Machine

/-- NOP in the stream is a pass-through word like any other (R191). -/
def execNop (payload : BitVec 24) (s : State) : Result := passThrough (encode (.nop payload)) s

/-- RESOURCEDECL "Has no effect on instruction semantics": the expanders pass it (R192). -/
def execResourcedecl (payload : BitVec 24) (s : State) : Result := passThrough (encode (.resourcedecl payload)) s

/-- DMANOP passes (R193). -/
def execDmanop (payload : BitVec 24) (s : State) : Result := passThrough (encode (.dmanop payload)) s

/-- SFPNOP passes (R194). -/
def execSfpnop (payload : BitVec 24) (s : State) : Result := passThrough (encode (.sfpnop payload)) s

/-- Every other word passes, all 32 bits as they are (R190, R195). -/
def execOther (opcode : BitVec 8) (payload : BitVec 24) (s : State) : Result :=
  passThrough (encode (.other opcode payload)) s

end Sys2Proof.Machine
end

