-- ==== Sys2Proof/Machine/Replay.lean ====
section
/-! DEFINITION. The Replay Expander's own instruction, REPLAY (spec/41_replay.md). -/

namespace Sys2Proof.Machine

/-- REPLAY as the Replay Expander interprets it: record mode starts a recording (R163), playback mode starts a
playback, ignoring Exec (R167). -/
def interpretReplay (t : ThreadId) (startIdx len : BitVec 10) (execWhileLoading loadMode : Bool) (s : State) : Result :=
  if loadMode then
    .next (s.setThread t ((s.thread t).startRecording (replayIndex startIdx) (replayCount len) execWhileLoading))
  else
    .next (s.setThread t ((s.thread t).startPlayback (replayIndex startIdx) (replayCount len)))

/-- REPLAY (R161). It passes the MOP Expander unchanged (spec/40_mop.md R120). At the Replay Expander it is
interpreted, unless a recording is in progress, which captures it as data (R165). -/
def execReplay (startIdx len : BitVec 10) (unlisted : BitVec 2) (execWhileLoading loadMode : Bool) (s : State) : Result :=
  match s.site.stage with
  | .mopExpander => passThrough (encode (.replay startIdx len unlisted execWhileLoading loadMode)) s
  | .replayExpander =>
    captureOr s.site.thread (encode (.replay startIdx len unlisted execWhileLoading loadMode))
      (interpretReplay s.site.thread startIdx len execWhileLoading loadMode) s

end Sys2Proof.Machine
end

