-- ==== Sys2Proof/Machine/Dispatch.lean ====
section
/-! DEFINITION. One arm per instruction, each one call of its meaning. The instruction is taken by the unit that
`s.site` names. -/

namespace Sys2Proof.Machine

def exec (i : Instr) (s : State) : Host.Outcome State Fault Refusal :=
  match i with
  | .mop template count1 maskLo => Sys2Proof.Machine.execMop template count1 maskLo s
  | .nop payload => Sys2Proof.Machine.execNop payload s
  | .mopCfg reserved maskHi => Sys2Proof.Machine.execMopCfg reserved maskHi s
  | .replay startIdx len unlisted execWhileLoading loadMode => Sys2Proof.Machine.execReplay startIdx len unlisted execWhileLoading loadMode s
  | .resourcedecl payload => Sys2Proof.Machine.execResourcedecl payload s
  | .dmanop payload => Sys2Proof.Machine.execDmanop payload s
  | .sfpnop payload => Sys2Proof.Machine.execSfpnop payload s
  | .other opcode payload => Sys2Proof.Machine.execOther opcode payload s

end Sys2Proof.Machine
end

