-- ==== Sys2Proof/Machine/Units.lean ====
section
/-! DEFINITION. The steps of the units and of the cores, and the free schedule between them
(spec/42_passthrough_and_composition.md R201; log 12, 15). -/

namespace Sys2Proof.Machine

/-- The MOP Expander of thread t takes `w`, the head of the FIFO before `rest`: the instruction runs there (R201). -/
def mopTake (t : ThreadId) (w : Word) (rest : List Word) (s : State) : Result :=
  exec (decode w) ((s.setThread t ((s.thread t).setFifo rest)).setSite { thread := t, stage := .mopExpander })

/-- The Replay Expander of thread t takes `w`, the head of PostMop before `rest`: the instruction runs there (R201). -/
def replayTake (t : ThreadId) (w : Word) (rest : List Word) (s : State) : Result :=
  exec (decode w) ((s.setThread t ((s.thread t).setPostMop rest)).setSite { thread := t, stage := .replayExpander })

/-- A turn of MOP Expander t: `emit` while an expansion is in progress (R148), else `take`, else nothing. -/
def mopStep (t : ThreadId) (s : State) : Result :=
  match (s.thread t).mopPending with
  | _ :: _ => .next (mopEmit t s)
  | [] =>
    match (s.thread t).fifo with
    | w :: rest => mopTake t w rest s
    | [] => .next s

/-- A turn of Replay Expander t: `emit` while a playback is in progress (spec/41_replay.md R168), else `take`, else
nothing. -/
def replayStep (t : ThreadId) (s : State) : Result :=
  match (s.thread t).playPending with
  | _ :: _ => replayEmit t s
  | [] =>
    match (s.thread t).postMop with
    | w :: rest => replayTake t w rest s
    | [] => .next s

/-- A turn of a unit. -/
def expanderStep (site : Site) (s : State) : Result :=
  match site.stage with
  | .mopExpander => mopStep site.thread s
  | .replayExpander => replayStep site.thread s

/-- A turn of an agent. -/
def agentStep (a : Agent) (s : State) : Result :=
  match a with
  | .core c => coreStep c s
  | .expander site => expanderStep site s

/-- Whose turn it is: the first of the schedule, and after the schedule any agent (R9 `MERGE_ORDER`, R40; log 12). -/
def nextTurn (s : State) : Agent × State :=
  match s.schedule with
  | a :: rest => (a, { s with schedule := rest })
  | [] => (Config.freeAgent s.turns, { s with turns := s.turns + 1 })

/-- The machine with a word at the head of `Fifo[0]` (in place of the head, if there is one), no expansion in
progress in T0, and the next turn MOP Expander T0's (log 27). -/
def placeFetchWord (s : State) (w : Word) : State :=
  { s.setThread .t0 { s.thread .t0 with
      fifo       := w :: (s.thread .t0).fifo.drop 1
      mopPending := []
      mopBusy    := false } with
    schedule := .expander { thread := .t0, stage := .mopExpander } :: s.schedule }

end Sys2Proof.Machine
end

