-- ==== Sys2Proof/Machine/Step.lean ====
section
/-! DEFINITION. One step of the machine: one agent's turn. -/

namespace Sys2Proof.Machine

/-- One step: the agent whose turn it is makes its step. -/
def step (s : State) : Host.Outcome State Fault Refusal :=
  agentStep (nextTurn s).1 (nextTurn s).2

/-- `s` with an instruction placed so that the very next step fetches and runs it (log 27). -/
def State.withFetchWord (s : State) (_nbits w : Nat) : State :=
  placeFetchWord s (BitVec.ofNat 32 w)

end Sys2Proof.Machine
end

