-- ==== Sys2Proof/Machine/Software.lean ====
section
/-! DEFINITION. The macros and wrappers through which software programs the expanders (spec/30_encoding.md R80 to
R83, R103 to R115): values of type `Word`, and sequences of TRISC actions. -/

namespace Sys2Proof.Machine

/-- `TT_OP(opcode, params) = (opcode << 24) + params`, 32-bit unsigned arithmetic (R80; spec/42_passthrough_and_composition.md R205). -/
def ttOp (opcode params : Word) : Word := (opcode <<< 24) + params

/-- `TT_OP_MOP`: the arguments are added, not masked (R81, R105). -/
def ttOpMop (mopType loopCount zmaskLo16 : Word) : Word :=
  ttOp 0x01 ((mopType <<< 23) + (loopCount <<< 16) + (zmaskLo16 <<< 0))

/-- `TT_OP_MOP_CFG` (R82). -/
def ttOpMopCfg (zmaskHi16 : Word) : Word := ttOp 0x03 (zmaskHi16 <<< 0)

/-- `TT_OP_REPLAY` (R83). -/
def ttOpReplay (startIdx len executeWhileLoading loadMode : Word) : Word :=
  ttOp 0x04 ((startIdx <<< 14) + (len <<< 4) + (executeWhileLoading <<< 1) + (loadMode <<< 0))

/-- `TT_OP_NOP`: opcode 0x02 and a payload the spec does not give (R104; log 29). -/
def ttOpNop : Word := encode (.nop Config.ttOpNopPayload)

/-- A C bool as a word. -/
def boolWord (b : Bool) : Word := if b then 1 else 0

/-- `TTI_<NAME>(args)` issues `TT_OP_<NAME>(args)` from the calling core (R104). -/
def tti (word : Word) : TriscAction := .push word

/-- The same issue as a `.ttinsn` word of the core's instruction stream (R100). -/
def ttiEncoded (word : Word) : TriscAction := .ttinsn (ttinsnEncode word)

/-- `__builtin_rvtt_ttreplay(start, length, exec, load)` (R111). -/
def builtinTtreplay (start length : Word) (exec load : Bool) : TriscAction :=
  tti (ttOpReplay start length (boolWord exec) (boolWord load))

/-- `lltt::record<E>(start, length)`; `E` defaults to NoExec (R108). -/
def llttRecord (start length : Word) (exec : Bool := false) : TriscAction := builtinTtreplay start length exec true

/-- `lltt::replay(start, length)` (R109). -/
def llttReplay (start length : Word) : TriscAction := builtinTtreplay start length false false

/-- `lltt::replay_insn(start, length)`, a word for MopCfg; it issues nothing (R110). -/
def llttReplayInsn (start length : Word) : Word := (0x04 <<< 24) ||| (start <<< 14) ||| (length <<< 4)

/-- A write of CSR 0x7C0 that sets bit 18 to the given level. -/
def setGatheringBit (level : Bool) : TriscAction :=
  .access (.csrWrite Config.gatherCsr (boolWord level <<< Config.gatherBit))

/-- `disable_gathering()` (R112, R114; the polarity is not given, log 29). -/
def disableGathering : TriscAction := setGatheringBit Config.gatheringOffLevel

/-- `enable_gathering()` (R112, R114). -/
def enableGathering : TriscAction := setGatheringBit (!Config.gatheringOffLevel)

/-- `load_replay_buf<Exec>(start, len, f)`, `body` being what `f` issues (R112). -/
def loadReplayBuf (start len : Word) (exec : Bool) (body : List TriscAction) : List TriscAction :=
  [disableGathering, llttRecord start len exec] ++ body ++ [enableGathering]

/-- `mop_sync()` (R114); the stored value is used by nothing. -/
def mopSyncCall : TriscAction := .mopSync 0

/-- `mop_cfg[i] = v` (spec/20_memory.md R52). -/
def storeMopCfgRegister (i : Fin 9) (v : Word) : TriscAction :=
  .access (.store (Config.mopCfgBase + 4 * BitVec.ofNat 32 i) 4 v)

/-- The nine stores that program Template 1 (R115). -/
def programTemplate1 (cfg : MopCfg) : List TriscAction :=
  (List.finRange 9).map fun i => storeMopCfgRegister i cfg[i]

/-- The stores and pushes of the typical Template 0 use (R115): flags, InsnB, the A instructions, the skips, then
`TTI_MOP_CFG(zmask >> 16)` and `TTI_MOP(0, count - 1, zmask & 0xFFFF)`. -/
def template0Usage (hasB hasHalo : Bool) (insnB insnA0 insnA1 insnA2 insnA3 skipA0 skipB zmask count : Word) :
    List TriscAction :=
  [storeMopCfgRegister 1 (boolWord hasB ||| (boolWord hasHalo <<< 1)),
   storeMopCfgRegister 2 insnB, storeMopCfgRegister 3 insnA0, storeMopCfgRegister 4 insnA1,
   storeMopCfgRegister 5 insnA2, storeMopCfgRegister 6 insnA3, storeMopCfgRegister 7 skipA0,
   storeMopCfgRegister 8 skipB,
   tti (ttOpMopCfg (zmask >>> 16)), tti (ttOpMop 0 (count - 1) (zmask &&& 0xFFFF))]

/-- `ckernel_template tmp(outer, inner, loop_op)`: the nine words it will program. The defaults are those the
source's example forces (R113; log 29). -/
def ckernelTemplate (outer inner loopOp : Word) : MopCfg :=
  #v[outer, inner, ttOpNop, ttOpNop, ttOpNop, loopOp, ttOpNop, loopOp, loopOp]

/-- `set_end_ops(end0, end1)` (R113). -/
def ckernelSetEndOps (tmp : MopCfg) (end0 end1 : Word) : MopCfg := (tmp.set 3 end0).set 4 end1

/-- `set_last_outer_loop_instr(x)`: MopCfg[7], Loop0Last (R113, spec/40_mop.md R140). -/
def ckernelSetLastOuterLoopInstr (tmp : MopCfg) (x : Word) : MopCfg := tmp.set 7 x

/-- `set_last_inner_loop_instr(x)`: MopCfg[8], Loop1Last (R113, spec/40_mop.md R140). -/
def ckernelSetLastInnerLoopInstr (tmp : MopCfg) (x : Word) : MopCfg := tmp.set 8 x

/-- `tmp.program()` (R113). -/
def ckernelProgram (tmp : MopCfg) : List TriscAction := programTemplate1 tmp

/-- `ckernel_template::run()`, `TTI_MOP(1, 0, 0)` (R113). -/
def ckernelRun : TriscAction := tti (ttOpMop 1 0 0)

end Sys2Proof.Machine
end

