-- ==== Sys2Proof/Machine/Assembler.lean ====
section
/-! DEFINITION. The assembler lines of spec/30_encoding.md R103: `ttmop T,C,M`, `ttmop_cfg H`, `ttreplay S,L,E,M`,
operands decimal or 0x hexadecimal, `#` starting a comment; the words they stand for, in `.ttinsn` form. What the
rule leaves open of the text is in log 34. -/

namespace Sys2Proof.Machine

/-- A line the assembler reads. -/
inductive AsmLine where
  | ttmop (template count1 maskLo : Nat)
  | ttmopCfg (maskHi : Nat)
  | ttreplay (startIdx len execWhileLoading loadMode : Nat)
deriving DecidableEq, Repr

/-- The word of a line: the C macro of its operands (R103). -/
def AsmLine.word : AsmLine → Word
  | .ttmop t c m => ttOpMop (BitVec.ofNat 32 t) (BitVec.ofNat 32 c) (BitVec.ofNat 32 m)
  | .ttmopCfg h => ttOpMopCfg (BitVec.ofNat 32 h)
  | .ttreplay s l e m =>
    ttOpReplay (BitVec.ofNat 32 s) (BitVec.ofNat 32 l) (BitVec.ofNat 32 e) (BitVec.ofNat 32 m)

/-- "The assembler emits the word in its `.ttinsn` form" (R103). -/
def AsmLine.emitted (line : AsmLine) : Word := ttinsnEncode line.word

/-- A space or a tab. -/
def isBlank (c : Char) : Bool := c == ' ' || c == '\t'

/-- The text without blanks at its two ends. -/
def trimBlanks (cs : List Char) : List Char := ((cs.dropWhile isBlank).reverse.dropWhile isBlank).reverse

/-- The value of a digit. -/
def digitValue (c : Char) : Option Nat :=
  if '0' ≤ c ∧ c ≤ '9' then some (c.toNat - '0'.toNat)
  else if 'a' ≤ c ∧ c ≤ 'f' then some (c.toNat - 'a'.toNat + 10)
  else if 'A' ≤ c ∧ c ≤ 'F' then some (c.toNat - 'A'.toNat + 10)
  else none

/-- The value of the digits read so far and of those to come. -/
def digitsValue (base : Nat) : (value : Nat) → List Char → Option Nat
  | value, [] => some value
  | value, c :: cs =>
    match digitValue c with
    | none => none
    | some d => if d < base then digitsValue base (value * base + d) cs else none

/-- An operand: decimal, or hexadecimal after `0x`. -/
def parseOperand (cs : List Char) : Option Nat :=
  match trimBlanks cs with
  | [] => none
  | '0' :: 'x' :: d :: ds => digitsValue 16 0 (d :: ds)
  | d :: ds => digitsValue 10 0 (d :: ds)

/-- The text cut at its commas. -/
def splitCommas (cs : List Char) : List (List Char) :=
  cs.foldr (fun c acc => if c = ',' then [] :: acc else
    match acc with
    | [] => [[c]]
    | first :: rest => (c :: first) :: rest) [[]]

/-- All operands of a line, if every one is a number. -/
def parseOperands : List (List Char) → Option (List Nat)
  | [] => some []
  | cs :: rest =>
    match parseOperand cs, parseOperands rest with
    | some n, some ns => some (n :: ns)
    | _, _ => none

/-- A line of assembler text. -/
def parseAsm (cs : List Char) : Option AsmLine :=
  let text := trimBlanks (cs.takeWhile fun c => c ≠ '#')
  let mnemonic := text.takeWhile fun c => !isBlank c
  match parseOperands (splitCommas (text.dropWhile fun c => !isBlank c)) with
  | none => none
  | some operands =>
    if mnemonic = ['t', 't', 'm', 'o', 'p'] then
      match operands with
      | [t, c, m] => some (.ttmop t c m)
      | _ => none
    else if mnemonic = ['t', 't', 'm', 'o', 'p', '_', 'c', 'f', 'g'] then
      match operands with
      | [h] => some (.ttmopCfg h)
      | _ => none
    else if mnemonic = ['t', 't', 'r', 'e', 'p', 'l', 'a', 'y'] then
      match operands with
      | [s, l, e, m] => some (.ttreplay s l e m)
      | _ => none
    else none

end Sys2Proof.Machine
end

