-- ==== Sys2Proof/Machine/Findings.lean ====
section
/-! DEFINITION. The optional outcomes of spec/60_exceptions.md R212 as findings about the instruction a unit is
about to run. They stop nothing in this model (log 13, 24, 28); a claim that wants the spec's stricter reading
asks that there be none. -/

namespace Sys2Proof.Machine

/-- The MopCfg registers a Template 0 expansion reads, in the functional model's order (spec/40_mop.md R126, R128):
R128's list, whatever the mask. MopCfg[3] is in it where every iteration sees a mask bit of 1, MopCfg[7] where every one
sees 0, though neither is emitted then. That "reads" (R128, R135, R212, D17) and not "emitted or tested" (R44, R213) says which
registers count for `UnwrittenMopCfg` is the model's choice (DESIGN CHOICE, log 36). -/
def template0Reads (cfg : MopCfg) : List (Fin 9) :=
  [1] ++ (if hasB cfg then [2] else []) ++ [3] ++ (if hasA123 cfg then [4, 5, 6] else []) ++ [7]
    ++ (if hasB cfg then [8] else [])

/-- The MopCfg registers an expansion reads, in order; Template 1 reads all nine (spec/40_mop.md R128, R135), whatever its
counts. That these count for `UnwrittenMopCfg`, emitted or tested or not, is the model's choice (DESIGN CHOICE, log 36). -/
def mopReads (template : Template) (cfg : MopCfg) : List (Fin 9) :=
  match template with
  | .unpackZeroMask => template0Reads cfg
  | .doubleLoop => List.finRange 9

/-- The slots a playback reads, in order (spec/41_replay.md R167). -/
def playbackReads (base : Fin 32) (n : Nat) : List (Fin 32) := (List.range n).map (replaySlot base)

/-- What an instruction would meet at the MOP Expander of a thread (R44, R90, R127, R213). The spec orders no two of
its optional outcomes on one instruction, so all that apply are reported: a Template 0 MOP with Count1 > 31 that also
reads an unwritten register has both, and which of the two is listed first is the model's choice and means nothing
(DESIGN CHOICE, log 35). Of several unwritten registers the first read is reported (R213), the registers that count being
those of `mopReads` (DESIGN CHOICE, log 36). -/
def mopFindings (i : Instr) (th : ThreadState) : List Finding :=
  match i with
  | .mop template count1 _ =>
    (if template = .unpackZeroMask ∧ 31 < count1.toNat then [.mopT0CountBeyondMask] else [])
      ++ (((mopReads template th.mopCfg).find? fun k => !th.cfgWritten[k]).map Finding.unwrittenMopCfg).toList
  | .mopCfg reserved _ => if reserved = 0 then [] else [.reservedBits]
  | .nop _ => []
  | .replay _ _ _ _ _ => []
  | .resourcedecl _ => []
  | .dmanop _ => []
  | .sfpnop _ => []
  | .other _ _ => []

/-- What an instruction would meet at the Replay Expander of a thread that is not recording (R90, R171). A playback with
bits 3:2 not zero that also reads an unwritten slot has both findings; which is listed first is the model's choice and
means nothing (DESIGN CHOICE, log 35). That of several unwritten slots the first read is reported is the model's choice
too (log 35). -/
def replayFindings (i : Instr) (th : ThreadState) : List Finding :=
  match i with
  | .replay startIdx len unlisted _ loadMode =>
    (if unlisted = 0 then [] else [.reservedBits])
      ++ (if loadMode then [] else
        (((playbackReads (replayIndex startIdx) (replayCount len)).find? fun k => !th.slotWritten[k]).map
          Finding.unwrittenReplaySlot).toList)
  | .mop _ _ _ => []
  | .mopCfg _ _ => []
  | .nop _ => []
  | .resourcedecl _ => []
  | .dmanop _ => []
  | .sfpnop _ => []
  | .other _ _ => []

/-- What the instruction the unit of `s.site` is about to run would meet. A recording reads nothing and decodes
nothing (spec/41_replay.md R165). -/
def findings (i : Instr) (s : State) : List Finding :=
  match s.site.stage with
  | .mopExpander => mopFindings i (s.thread s.site.thread)
  | .replayExpander =>
    match (s.thread s.site.thread).recording with
    | some _ => []
    | none => replayFindings i (s.thread s.site.thread)

end Sys2Proof.Machine
end

