-- ==== Sys2Proof/Machine/Streams.lean ====
section
/-! DEFINITION. The two expanders as functions from words to words, straight from the source's functional models
(spec/40_mop.md R120, spec/41_replay.md R160, R161), and their composition
(spec/42_passthrough_and_composition.md R196). They test the bits of the word and use no decoder, so that the
step-wise machine can be held against them. -/

namespace Sys2Proof.Machine

/-- `F_mop` on one word: what the MOP Expander emits for it, and MaskHi after it (R120). -/
def mopModel (cfg : MopCfg) (maskHi : BitVec 16) (w : Word) : List Word × BitVec 16 :=
  if opcodeOf w = 0x03#8 then ([], w.extractLsb' 0 16)
  else if opcodeOf w = 0x01#8 then
    (if w.getLsbD 23 then expandTemplate1 cfg
      else expandTemplate0 cfg ((w.extractLsb' 16 7).toNat + 1)
        ((maskHi.setWidth 32 <<< 16) ||| (w &&& 0xFFFF)), maskHi)
  else ([w], maskHi)

/-- `F_mop` on a stream, the expansions in input order (R63, R196). -/
def mopStream (cfg : MopCfg) : (maskHi : BitVec 16) → (words : List Word) → List Word × BitVec 16
  | maskHi, [] => ([], maskHi)
  | maskHi, w :: rest =>
    ((mopModel cfg maskHi w).1 ++ (mopStream cfg (mopModel cfg maskHi w).2 rest).1,
      (mopStream cfg (mopModel cfg maskHi w).2 rest).2)

/-- What the Replay Expander carries from word to word. -/
structure ReplayUnit where
  buf       : ReplayBuf
  recording : Option Recording
deriving DecidableEq, Repr

/-- `F_replay` on one word: what the Replay Expander emits for it, and its state after it (R161). -/
def replayModel (u : ReplayUnit) (w : Word) : List Word × ReplayUnit :=
  match u.recording with
  | some r =>
    (if r.exec then [w] else [],
      { buf       := u.buf.set (replaySlot r.base r.i) w
        recording := if r.i + 1 = r.n then none else some { r with i := r.i + 1 } })
  | none =>
    if opcodeOf w ≠ 0x04#8 then ([w], u)
    else
      let base : Fin 32 := ⟨(w.extractLsb' 14 5).toNat, (w.extractLsb' 14 5).isLt⟩
      let n := if w.extractLsb' 4 6 = 0 then 64 else (w.extractLsb' 4 6).toNat
      if w.getLsbD 0 then ([], { u with recording := some { base := base, i := 0, n := n, exec := w.getLsbD 1 } })
      else (playbackWords u.buf base n, u)

/-- `F_replay` on a stream. -/
def replayStream : (u : ReplayUnit) → (words : List Word) → List Word × ReplayUnit
  | u, [] => ([], u)
  | u, w :: rest =>
    ((replayModel u w).1 ++ (replayStream (replayModel u w).2 rest).1, (replayStream (replayModel u w).2 rest).2)

/-- What a thread comes to: the words `Out[t]` will hold, and MaskHi and the Replay Expander's state, once all that
now waits in its queues has gone through, with MopCfg as it is (R196, R202). -/
def ThreadState.settled (th : ThreadState) : List Word × BitVec 16 × ReplayUnit :=
  let mop := mopStream th.mopCfg th.maskHi th.fifo
  let replay := replayStream { buf := th.replayBuf, recording := th.recording } (th.postMop ++ th.mopPending ++ mop.1)
  (th.out ++ th.playPending ++ replay.1, mop.2, replay.2)

/-- The words an action of TRISC_t pushes. -/
def TriscAction.pushed : TriscAction → List Word
  | .push word => [word]
  | .ttinsn encoded => [ttinsnDecode encoded]
  | .mopSync _ => []
  | .access _ => []

/-- An action of TRISC_t that stores to no MopCfg register. -/
def TriscAction.sparesMopCfg : TriscAction → Bool
  | .push _ => true
  | .ttinsn _ => true
  | .mopSync _ => true
  | .access (.store addr _ _) => !inMopCfgWindow addr
  | .access (.load _ _) => true
  | .access (.csrRead _) => true
  | .access (.csrWrite _ _) => true
  | .access .ttSync => true

/-- An action of BRISC that does nothing to thread t. -/
def BriscAction.spares (t : ThreadId) : BriscAction → Bool
  | .pushPostMop t' _ => decide (t' ≠ t)
  | .writeMopCfg t' _ _ => decide (t' ≠ t)
  | .access (.store addr _ _) => decide ((briscMopCfgTarget addr).map Prod.fst ≠ some t)
  | .access (.load _ _) => true
  | .access (.csrRead _) => true
  | .access (.csrWrite _ _) => true
  | .access .ttSync => true

/-- Thread t's MopCfg will not be stored to, and BRISC will not push to it: R202's premises, in the case that no store
to MopCfg is to come at all. -/
def State.undisturbed (s : State) (t : ThreadId) : Bool :=
  (s.trisc t).program.all TriscAction.sparesMopCfg && s.brisc.program.all (BriscAction.spares t)

/-- What thread t comes to once TRISC_t has pushed all it has still to push, too (R202). -/
def State.outcome (s : State) (t : ThreadId) : List Word × BitVec 16 × ReplayUnit :=
  { s.thread t with fifo := (s.thread t).fifo ++ (s.trisc t).program.flatMap TriscAction.pushed }.settled

end Sys2Proof.Machine
end

