-- ==== Sys2Proof/Safety.lean ====
section
/-! DEFINITION. What holds of every state the machine can be in, and what a safe run is. -/

namespace Sys2Proof.Safety

open Sys2Proof.Machine

/-- A recording in progress has 1 to 64 words to capture and has not captured them all (spec/10_state.md R31). -/
def recordingOk (r : Recording) : Prop := 1 ≤ r.n ∧ r.n ≤ Config.replayMax ∧ r.i < r.n

/-- What the spec says of one thread at every moment. -/
structure ThreadInv (th : ThreadState) : Prop where
  /-- at most 32 entries in the FIFO (spec/10_state.md R23) -/
  fifoDepth     : th.fifo.length ≤ Config.fifoDepth
  /-- no expansion is longer than the largest (spec/40_mop.md R147) -/
  pendingBound  : th.mopPending.length ≤ Config.mopMax
  /-- `MopBusy` is true exactly while an expansion is in progress (spec/10_state.md R28) -/
  mopBusy       : th.mopBusy = !th.mopPending.isEmpty
  /-- no playback is longer than 64 words (spec/41_replay.md R172) -/
  playbackBound : th.playPending.length ≤ Config.replayMax
  /-- outside a recording `ReplayBusy` is true exactly while a playback is in progress (spec/10_state.md R33) -/
  replayBusy    : th.replayBusy = !th.playPending.isEmpty
  /-- no recording starts while a playback is in progress (spec/10_state.md R32) -/
  oneMode       : th.playPending ≠ [] → th.recording = none
  /-- a recording in progress is a legal one (spec/10_state.md R31) -/
  recording     : ∀ r, th.recording = some r → recordingOk r
  /-- no word with an expander's opcode has been delivered (spec/30_encoding.md R93) -/
  outClean      : ∀ w ∈ th.out, isExpanderOpcode w = false

/-- What the spec says of the machine at every moment. -/
def Inv (s : State) : Prop := ∀ t, ThreadInv (s.thread t)

/-- What no unit and no core action touches. -/
def sameControl (s s' : State) : Prop :=
  s'.site = s.site ∧ s'.schedule = s.schedule ∧ s'.turns = s.turns ∧ s'.draws = s.draws

/-- Every thread but t is as it was. -/
def sameThreadsBut (t : ThreadId) (s s' : State) : Prop := ∀ t', t' ≠ t → s'.thread t' = s.thread t'

/-- The frame of a unit of thread t: nothing outside thread t has changed, no core, no other thread. -/
def unitFrame (t : ThreadId) (s s' : State) : Prop :=
  sameThreadsBut t s s' ∧ (∀ t', s'.trisc t' = s.trisc t') ∧ s'.brisc = s.brisc ∧ sameControl s s'

/-- The frame of a core's action: no core's port has changed, and no other core's remaining actions. -/
def coreFrame (c : CoreId) (s s' : State) : Prop :=
  (∀ c', s'.port c' = s.port c') ∧ (∀ t, c ≠ .trisc t → (s'.trisc t).program = (s.trisc t).program) ∧
  (c ≠ .brisc → s'.brisc.program = s.brisc.program) ∧ sameControl s s'

/-- The frame of a core's CSR access: nothing but its own port, its own remaining actions and the count of drawn free
values has changed. -/
def portFrame (c : CoreId) (s s' : State) : Prop :=
  (∀ t, s'.thread t = s.thread t) ∧ (∀ c', c' ≠ c → s'.port c' = s.port c') ∧
  (∀ t, c ≠ .trisc t → (s'.trisc t).program = (s.trisc t).program) ∧
  (c ≠ .brisc → s'.brisc.program = s.brisc.program) ∧
  s'.site = s.site ∧ s'.schedule = s.schedule ∧ s'.turns = s.turns

/-- The next action of core c is a store of v to `MopCfg[t][i]`: a TRISC's word store in the window, BRISC's write, or
BRISC's word store at an address of its own (spec/20_memory.md R52 to R54). -/
def nextStoresMopCfg (c : CoreId) (t : ThreadId) (i : Fin 9) (v : Word) (s : State) : Prop :=
  match c with
  | .trisc t' => t' = t ∧ ∃ rest,
      (s.trisc t').program = .access (.store (0xFFB80000 + 4 * BitVec.ofNat 32 i.val) 4 v) :: rest
  | .brisc => ∃ rest, s.brisc.program = .writeMopCfg t i v :: rest ∨
      ∃ addr, briscMopCfgTarget addr = some (t, i) ∧ s.brisc.program = .access (.store addr 4 v) :: rest

/-- A run of `k` steps that meets no fault and no refusal. -/
def SafeFor (k : Nat) (s : State) : Prop := ∃ s', Sys2Proof.core.run k s = .next s'

/-- A run of `k` steps that ends as the spec calls final (spec/42_passthrough_and_composition.md R204). -/
def EndsFinal (k : Nat) (s : State) : Prop :=
  ∃ s' : State, Sys2Proof.core.run k s = .next s' ∧ runStatus s' = .final

end Sys2Proof.Safety
end

