-- ==== Sys2Proof/Certificates/Slice0/Obligations.lean ====
section
/-! DEFINITION. The statements for the provers. Each docstring says which rule of spec/ it formalises. -/

open Sys2Proof Sys2Proof.Machine Sys2Proof.Safety

/-! Encoding. -/

/-- Every well-formed instruction is read back from its word, every field at every value (30_encoding.md R80 to R84,
R91). -/
def Obligations.DecodeOfEncodeIsIdentity : Prop :=
  ∀ i : Instr, i.WellFormed → decode (encode i) = i

/-- Every one of the 2^32 words decodes, to a well-formed instruction whose word it is: no bit is dropped and no
encoding is illegal (30_encoding.md R91, R92). -/
def Obligations.EncodeOfDecodeIsIdentity : Prop :=
  ∀ w : Word, (decode w).WellFormed ∧ encode (decode w) = w

/-- Words written out from the field lists (30_encoding.md R81 to R84, R101) decode to what they stand for. -/
def Obligations.SampleWordsDecode : Prop :=
  decode 0x01800000 = .mop .doubleLoop 0 0 ∧
  decode 0x01030005 = .mop .unpackZeroMask 3 5 ∧
  decode 0x017FFFFF = .mop .unpackZeroMask 127 0xFFFF ∧
  decode 0x0300ABCD = .mopCfg 0 0xABCD ∧
  decode 0x04040101 = .replay 16 16 0 false true ∧
  decode 0x04000053 = .replay 0 5 0 true true ∧
  decode 0x04FFFFF3 = .replay 1023 1023 0 true true ∧
  decode 0x02000000 = .nop 0 ∧ decode 0x05000000 = .resourcedecl 0 ∧
  decode 0x60000000 = .dmanop 0 ∧ decode 0x8F000000 = .sfpnop 0 ∧
  decode 0xA5000001 = .other 0xA5 1

/-- The `.ttinsn` form is the word rotated left by 2, un-rotating gives the word back, and a TRISC that executes it
pushes the un-rotated word (30_encoding.md R100). -/
def Obligations.TtinsnIsRotationByTwo : Prop :=
  (∀ w : Word, ttinsnEncode w = (w <<< 2) ||| (w >>> 30)) ∧
  (∀ e : Word, ttinsnDecode e = (e >>> 2) ||| (e <<< 30)) ∧
  (∀ w : Word, ttinsnDecode (ttinsnEncode w) = w) ∧
  (∀ e : Word, ttinsnEncode (ttinsnDecode e) = e) ∧
  (∀ w : Word, (ttinsnEncode w).getLsbD 0 = w.getLsbD 30 ∧ (ttinsnEncode w).getLsbD 1 = w.getLsbD 31 ∧
    ∀ k < 30, (ttinsnEncode w).getLsbD (k + 2) = w.getLsbD k) ∧
  (∀ (t : ThreadId) (e : Word) (s : State), performTrisc t (.ttinsn e) s = performTrisc t (.push (ttinsnDecode e)) s)

/-- With arguments that fit their fields the C macros give the instruction's word, and `lltt::replay_insn` that of a
playback (30_encoding.md R81 to R83, R110). The macros mask nothing: what an argument has beyond its field is carried
into the next one, TT_OP_MOP(0, 128, 0) being TT_OP_MOP(1, 0, 0), beyond the last one into the opcode. The addition
(R80's `TT_OP`) and the carries (R105) are the spec's own inferences, marked [derived]. -/
def Obligations.MacrosBuildInstructionWords : Prop :=
  (∀ (tm : Template) (c : BitVec 7) (m : BitVec 16),
    ttOpMop (boolWord (templateBit tm)) (c.setWidth 32) (m.setWidth 32) = encode (.mop tm c m)) ∧
  (∀ h : BitVec 16, ttOpMopCfg (h.setWidth 32) = encode (.mopCfg 0 h)) ∧
  (∀ (a b : BitVec 10) (e l : Bool),
    ttOpReplay (a.setWidth 32) (b.setWidth 32) (boolWord e) (boolWord l) = encode (.replay a b 0 e l)) ∧
  (∀ a b : BitVec 10, llttReplayInsn (a.setWidth 32) (b.setWidth 32) = encode (.replay a b 0 false false)) ∧
  ttOpMop 0 128 0 = ttOpMop 1 0 0 ∧
  (∀ tm c m : Word, ttOpMop tm c (0x10000 + m) = ttOpMop tm (c + 1) m ∧ ttOpMop tm (128 + c) m = ttOpMop (tm + 1) c m ∧
    ttOpMop (2 + tm) c m = ttOpMop tm c m + 0x01000000) ∧
  (∀ k h : Word, ttOpMopCfg (k + h) = ttOpMopCfg h + k) ∧
  (∀ a b e l : Word, ttOpReplay a b e (2 + l) = ttOpReplay a b (e + 1) l ∧
    ttOpReplay a b (8 + e) l = ttOpReplay a (b + 1) e l ∧ ttOpReplay a (1024 + b) e l = ttOpReplay (a + 1) b e l ∧
    ttOpReplay (1024 + a) b e l = ttOpReplay a b e l + 0x01000000)

/-- The five assembler lines of the source are read, and stand for the words the source prints (30_encoding.md R101,
R103). -/
def Obligations.AssemblerReadsTheSourceLines : Prop :=
  (parseAsm "ttmop      1,0,0          # MOP Template 1, Count1=0, MaskLo=0".toList).map AsmLine.emitted
    = some 0x06000000 ∧
  (parseAsm "ttmop_cfg  0xABCD         # MOP_CFG with MaskHi=0xABCD".toList).map AsmLine.emitted
    = some 0x0C02AF34 ∧
  (parseAsm "ttreplay   0,5,1,1        # REPLAY: start=0, len=5, exec=1, load=1".toList).map AsmLine.emitted
    = some 0x1000014C ∧
  (parseAsm "ttreplay   16,16,0,1      # REPLAY: record 16 insns at slots 16..31".toList).map AsmLine.emitted
    = some 0x10100404 ∧
  (parseAsm "ttreplay   0,5,0,0        # REPLAY: playback 5 insns from slot 0".toList).map AsmLine.emitted
    = some 0x10000140

/-- The operands of the words: MOP's fields, its number of Template 0 iterations and the mask, MaskHi in bits 31:16, with
Template 1 ignoring Count1 and MaskLo; REPLAY's Index, bits 18:14, and its number of words, bits 9:4 with 0 meaning 64, so
that bits 23:19 and 13:10 have no effect and len 64, 128 and 65 give 64, 64 and 1 (30_encoding.md R85, R87, R88). -/
def Obligations.OperandsOfTheWord : Prop :=
  (∀ w : Word, opcodeOf w = 0x01#8 → ∃ tm c m, decode w = .mop tm c m ∧ (tm = .doubleLoop ↔ w.getLsbD 23 = true) ∧
    c = w.extractLsb' 16 7 ∧ m = w.extractLsb' 0 16 ∧
    template0Iterations c = c.toNat + 1 ∧ 1 ≤ template0Iterations c ∧ template0Iterations c ≤ 128 ∧
    (∀ (h : BitVec 16) (k : Nat), (zeroMask h m).getLsbD k = if k < 16 then w.getLsbD k else h.getLsbD (k - 16)) ∧
    (∀ (h : BitVec 16) (cfg : MopCfg), expandMop .unpackZeroMask c m h cfg =
      expandTemplate0 cfg (template0Iterations c) (zeroMask h m)) ∧
    (∀ (h : BitVec 16) (cfg : MopCfg), expandMop .doubleLoop c m h cfg = expandTemplate1 cfg)) ∧
  (∀ w : Word, opcodeOf w = 0x04#8 → ∃ a b u e l, decode w = .replay a b u e l ∧
    (replayIndex a).val = (w.extractLsb' 14 5).toNat ∧
    (∀ i, (replaySlot (replayIndex a) i).val = (a.toNat + i) % 32) ∧
    replayCount b = (if w.extractLsb' 4 6 = 0 then 64 else (w.extractLsb' 4 6).toNat) ∧
    1 ≤ replayCount b ∧ replayCount b ≤ 64) ∧
  replayCount 0 = 64 ∧ replayCount 64 = 64 ∧ replayCount 128 = 64 ∧ replayCount 65 = 1

/-! MOP and MOP_CFG. -/

/-- `IsNop` looks at the opcode byte only: 0x02 is NOP whatever its other bits, DMANOP and SFPNOP are not
(40_mop.md R123). -/
def Obligations.IsNopTestsTheOpcodeByte : Prop :=
  (∀ w : Word, isNop w = true ↔ w >>> 24 = 0x02) ∧
  (∀ p : BitVec 24, isNop (encode (.nop p)) = true ∧ isNop (encode (.dmanop p)) = false ∧
    isNop (encode (.sfpnop p)) = false)

/-- MOP_CFG at the MOP Expander completes in every state: MaskHi becomes its low 16 bits, whatever its reserved bits,
and nothing else changes, nothing is emitted (40_mop.md R122). That the reserved bits are ignored is the spec's decision
D13 (30_encoding.md R90; log 13). -/
def Obligations.MopCfgSetsMaskHi : Prop :=
  ∀ (s : State) (t : ThreadId) (reserved : BitVec 8) (maskHi : BitVec 16), s.site = ⟨t, .mopExpander⟩ →
    ∃ s', exec (.mopCfg reserved maskHi) s = .next s' ∧
      s'.thread t = { s.thread t with maskHi := maskHi } ∧ unitFrame t s s'

/-- MOP at the MOP Expander completes in every state: its whole expansion waits, `MopBusy` is true if there is any of
it, and nothing else changes, MaskHi and MopCfg among it (40_mop.md R121, 10_state.md R27, R28). When `MopBusy` is true
is the spec's decision D7 (log 8), the snapshot D9 (log 10). -/
def Obligations.MopStartsItsExpansion : Prop :=
  ∀ (s : State) (t : ThreadId) (tm : Template) (c : BitVec 7) (m : BitVec 16), s.site = ⟨t, .mopExpander⟩ →
    ∃ s', exec (.mop tm c m) s = .next s' ∧
      s'.thread t = { s.thread t with
        mopPending := expandMop tm c m (s.thread t).maskHi (s.thread t).mopCfg
        mopBusy := decide (expandMop tm c m (s.thread t).maskHi (s.thread t).mopCfg ≠ []) } ∧ unitFrame t s s'

/-- Template 0: `Count1 + 1` iterations, iteration i looking at bit i of `(MaskHi << 16) | MaskLo`, 0 past bit 31; a
bit of 0 gives A0, then A1, A2, A3 if HasA123, then B if HasB; a bit of 1 gives SkipA0, then SkipB if HasB
(40_mop.md R126). That the iterations past bit 31 see 0 is the spec's inference R127, marked [derived] (log 24). -/
def Obligations.Template0IterationsFollowTheMask : Prop :=
  ∀ (c : BitVec 7) (m h : BitVec 16) (cfg : MopCfg),
    expandMop .unpackZeroMask c m h cfg =
      (List.range (c.toNat + 1)).flatMap fun i =>
        if i < 32 ∧ ((h.setWidth 32 <<< 16) ||| m.setWidth 32).getLsbD i = true then
          [cfg[7]] ++ (if cfg[1].getLsbD 0 then [cfg[8]] else [])
        else
          [cfg[3]] ++ (if cfg[1].getLsbD 1 then [cfg[4], cfg[5], cfg[6]] else [])
            ++ (if cfg[1].getLsbD 0 then [cfg[2]] else [])

/-- The length of a Template 0 expansion, its least, 1, and its most, 640 (40_mop.md R130, the spec's
inference "[derived: from rule R126]"). -/
def Obligations.Template0Length : Prop :=
  (∀ (c : BitVec 7) (m h : BitVec 16) (cfg : MopCfg),
    let mask : Word := (h.setWidth 32 <<< 16) ||| m.setWidth 32
    let z := ((List.range (c.toNat + 1)).filter fun i => !(decide (i < 32) && mask.getLsbD i)).length
    let s := c.toNat + 1 - z
    let b := (cfg[1].getLsbD 0).toNat
    let a := (cfg[1].getLsbD 1).toNat
    (expandMop .unpackZeroMask c m h cfg).length = z * (1 + 3 * a + b) + s * (1 + b) ∧
    1 ≤ (expandMop .unpackZeroMask c m h cfg).length ∧ (expandMop .unpackZeroMask c m h cfg).length ≤ 640) ∧
  (∀ (m h : BitVec 16) (cfg : MopCfg), cfg[1].getLsbD 0 = false → cfg[1].getLsbD 1 = false →
    (expandMop .unpackZeroMask 0 m h cfg).length = 1) ∧
  (∀ cfg : MopCfg, cfg[1].getLsbD 0 = true → cfg[1].getLsbD 1 = true →
    (expandMop .unpackZeroMask 127 0 0 cfg).length = 640)

/-- Template 1 in closed form: the outer and inner counts with the doubling and the hardware bug; inner word i is LoopOp
for even i and, when LoopOp1 is not a NOP, LoopOp1 for odd i, every outer iteration starting again with LoopOp; the
last inner word is Loop1Last, and Loop0Last in the last outer iteration; StartOp, EndOp0, EndOp1 frame every outer
iteration as R141 says (40_mop.md R136, R138 to R143; R138's even and odd words, R142 and R143 are the spec's
inferences from R136). -/
def Obligations.Template1ClosedForm : Prop :=
  ∀ cfg : MopCfg,
    let alternates := !isNop cfg[6]
    let oc := cfg[0].toNat % 128
    let ic := (cfg[1].toNat % 128) * (if alternates then 2 else 1)
    let outer := if oc = 1 ∧ isNop cfg[2] = true ∧ ic = 0 ∧ isNop cfg[3] = false then 129 else oc
    expandTemplate1 cfg =
      (List.range outer).flatMap fun j =>
        (if isNop cfg[2] then [] else [cfg[2]]) ++
        ((List.range ic).map fun i =>
          if i + 1 = ic then (if j + 1 = outer then cfg[7] else cfg[8])
          else if alternates = true ∧ i % 2 = 1 then cfg[6] else cfg[5]) ++
        (if isNop cfg[3] then [] else if isNop cfg[4] then [cfg[3]] else [cfg[3], cfg[4]])

/-- The length of a Template 1 expansion (40_mop.md R145, the spec's inference "[derived: from rule R136]"). -/
def Obligations.Template1Length : Prop :=
  ∀ cfg : MopCfg,
    let oc := cfg[0].toNat % 128
    let ic := cfg[1].toNat % 128
    let a := if isNop cfg[6] then 0 else 1
    let ic2 := ic * (1 + a)
    let s := if isNop cfg[2] then 0 else 1
    let e0 := if isNop cfg[3] then 0 else 1
    let e1 := if isNop cfg[4] then 0 else 1
    let oc2 := if oc = 1 ∧ s = 0 ∧ ic2 = 0 ∧ e0 = 1 then 129 else oc
    (expandTemplate1 cfg).length = oc2 * (s + ic2 + e0 * (1 + e1))

/-- No MOP expands to more than 32639 words, and a Template 1 MOP with both counts 127 and LoopOp1, StartOp, EndOp0,
EndOp1 no NOPs expands to that many; the hardware-bug case gives at most 258, Template 0 at most 640
(40_mop.md R147, the spec's inference "[derived: from rule R145 and rule R130]"). -/
def Obligations.LargestExpansion : Prop :=
  (∀ (tm : Template) (c : BitVec 7) (m h : BitVec 16) (cfg : MopCfg), (expandMop tm c m h cfg).length ≤ 32639) ∧
  (∀ cfg : MopCfg, cfg[0].toNat % 128 = 127 → cfg[1].toNat % 128 = 127 → isNop cfg[6] = false →
    isNop cfg[2] = false → isNop cfg[3] = false → isNop cfg[4] = false →
    (expandTemplate1 cfg).length = 127 * (1 + 254 + 2) ∧ 127 * (1 + 254 + 2) = 32639) ∧
  (∀ cfg : MopCfg, cfg[0].toNat % 128 = 1 → cfg[1].toNat % 128 = 0 → isNop cfg[2] = true → isNop cfg[3] = false →
    (expandTemplate1 cfg).length ≤ 258) ∧
  (∀ (c : BitVec 7) (m h : BitVec 16) (cfg : MopCfg), (expandMop .unpackZeroMask c m h cfg).length ≤ 640)

/-- The hardware bug of Template 1, and that no other combination triggers it (40_mop.md R139). -/
def Obligations.Template1HardwareBug : Prop :=
  ∀ cfg : MopCfg,
    let ends := if isNop cfg[4] then [cfg[3]] else [cfg[3], cfg[4]]
    (cfg[0].toNat % 128 = 1 → cfg[1].toNat % 128 = 0 →
      (isNop cfg[2] = true → isNop cfg[3] = false →
        expandTemplate1 cfg = (List.replicate 129 ends).flatten ∧
        (expandTemplate1 cfg).length = if isNop cfg[4] then 129 else 258) ∧
      (isNop cfg[2] = true → isNop cfg[3] = true → expandTemplate1 cfg = []) ∧
      (isNop cfg[2] = false → isNop cfg[3] = false → expandTemplate1 cfg = cfg[2] :: ends)) ∧
    (¬ (cfg[0].toNat % 128 = 1 ∧ cfg[1].toNat % 128 = 0 ∧ isNop cfg[2] = true ∧ isNop cfg[3] = false) →
      outerCount cfg = cfg[0].toNat % 128)

/-- Zero counts, and that only bits 6:0 of MopCfg[0] and MopCfg[1] count (40_mop.md R143, the
spec's inference "[derived: from rule R136]"). -/
def Obligations.Template1ZeroCounts : Prop :=
  (∀ cfg : MopCfg, cfg[0].toNat % 128 = 0 → expandTemplate1 cfg = []) ∧
  (∀ cfg : MopCfg, 1 ≤ cfg[0].toNat % 128 → cfg[1].toNat % 128 = 0 →
    let framing := (if isNop cfg[2] then [] else [cfg[2]]) ++
      (if isNop cfg[3] then [] else if isNop cfg[4] then [cfg[3]] else [cfg[3], cfg[4]])
    expandTemplate1 cfg = (List.replicate
      (if cfg[0].toNat % 128 = 1 ∧ isNop cfg[2] = true ∧ isNop cfg[3] = false then 129 else cfg[0].toNat % 128)
      framing).flatten ∧
    (isNop cfg[2] = true → isNop cfg[3] = true → expandTemplate1 cfg = [])) ∧
  (∀ (cfg : MopCfg) (a b : Word), a.toNat % 128 = cfg[0].toNat % 128 → b.toNat % 128 = cfg[1].toNat % 128 →
    expandTemplate1 ((cfg.set 0 a).set 1 b) = expandTemplate1 cfg) ∧
  loopCount 128 = 0 ∧ loopCount 129 = 1 ∧ loopCount 0xFFFFFFFF = 127

/-- A Template 1 MOP ignores Count1 and MaskLo, neither reads nor changes MaskHi, and changes no architectural state,
only the pending expansion and its busy bit (40_mop.md R144). -/
def Obligations.Template1IgnoresTheWordFields : Prop :=
  ∀ (s : State) (t : ThreadId) (c c' : BitVec 7) (m m' h : BitVec 16), s.site = ⟨t, .mopExpander⟩ →
    ∃ s1 s2, exec (.mop .doubleLoop c m) s = .next s1 ∧
      exec (.mop .doubleLoop c' m') (s.setThread t { s.thread t with maskHi := h }) = .next s2 ∧
      (s1.thread t).mopPending = (s2.thread t).mopPending ∧
      (s1.thread t).mopPending = expandTemplate1 (s.thread t).mopCfg ∧
      s1.thread t = { s.thread t with mopPending := (s1.thread t).mopPending, mopBusy := (s1.thread t).mopBusy } ∧
      (s2.thread t).maskHi = h ∧ (s2.thread t).mopCfg = (s.thread t).mopCfg ∧ unitFrame t s s1

/-- The reserved and unused bits are ignored by the unit that interprets the word: MOP_CFG 23:16; REPLAY 3:2, 23:19 and
13:10, and Exec in a playback (30_encoding.md R87 to R90). That they are ignored is the spec's decision D13 (log 13). -/
def Obligations.UnusedBitsAreIgnored : Prop :=
  (∀ (s : State) (t : ThreadId) (r : BitVec 8) (h : BitVec 16), s.site = ⟨t, .mopExpander⟩ →
    exec (.mopCfg r h) s = exec (.mopCfg 0 h) s) ∧
  (∀ (s : State) (t : ThreadId) (a b a' b' : BitVec 10) (u u' : BitVec 2) (e e' l : Bool),
    s.site = ⟨t, .replayExpander⟩ → (s.thread t).recording = none →
    a.toNat % 32 = a'.toNat % 32 → b.toNat % 64 = b'.toNat % 64 → (l = true → e = e') →
    exec (.replay a b u e l) s = exec (.replay a' b' u' e' l) s)

/-! REPLAY. -/

/-- A record-mode REPLAY at the Replay Expander, not recording, completes: it enters recording with base `start_idx mod
32`, i 0, n `len mod 64` with 0 meaning 64, and Exec; nothing is emitted and the buffer is not touched
(41_replay.md R163, 30_encoding.md R87, R88). -/
def Obligations.RecordModeEntersRecording : Prop :=
  (∀ (s : State) (t : ThreadId) (a b : BitVec 10) (u : BitVec 2) (e : Bool),
    s.site = ⟨t, .replayExpander⟩ → (s.thread t).recording = none →
    ∃ s', exec (.replay a b u e true) s = .next s' ∧
      s'.thread t = { s.thread t with
        recording := some (Recording.mk ⟨a.toNat % 32, Nat.mod_lt _ (by decide)⟩ 0
          (if b.toNat % 64 = 0 then 64 else b.toNat % 64) e) } ∧ unitFrame t s s') ∧
  (∀ (s : State) (t : ThreadId), s.site = ⟨t, .replayExpander⟩ → (s.thread t).recording = none →
    ∃ s', exec (decode 0x04040101) s = .next s' ∧
      (s'.thread t).recording = some { base := 16, i := 0, n := 16, exec := false })

/-- A playback REPLAY at the Replay Expander, not recording, completes: the words of the n slots from Index on, modulo
32, wait to be emitted, `ReplayBusy` is true, and nothing else changes, the buffer among it (41_replay.md R167, R169,
R170; 10_state.md R33). When `ReplayBusy` is true is the spec's decision D8 (log 9). -/
def Obligations.PlaybackEmitsTheAddressedSlots : Prop :=
  ∀ (s : State) (t : ThreadId) (a b : BitVec 10) (u : BitVec 2) (e : Bool),
    s.site = ⟨t, .replayExpander⟩ → (s.thread t).recording = none →
    ∃ s', exec (.replay a b u e false) s = .next s' ∧
      s'.thread t = { s.thread t with
        playPending := (List.range (if b.toNat % 64 = 0 then 64 else b.toNat % 64)).map fun i =>
          (s.thread t).replayBuf[(a.toNat + i) % 32]'(Nat.mod_lt _ (by decide))
        replayBusy := true } ∧ unitFrame t s s'

/-- While recording, every instruction that arrives at the Replay Expander is captured undecoded: it is stored in slot
`(base + i) mod 32`, the recording advances and ends with the n-th word; with Exec it is also delivered, which the spec
refuses for an expander's opcode (41_replay.md R161, R164, R165, the last the spec's inference from R160;
30_encoding.md R93, decision D14, log 14). All eight constructors. -/
def Obligations.RecordingCapturesEveryInstruction : Prop :=
  ∀ (s : State) (t : ThreadId) (i : Instr) (r : Recording),
    s.site = ⟨t, .replayExpander⟩ → (s.thread t).recording = some r →
    let captured : ThreadState := { s.thread t with
      replayBuf := (s.thread t).replayBuf.set ((r.base.val + r.i) % 32) (encode i) (Nat.mod_lt _ (by decide))
      slotWritten := (s.thread t).slotWritten.set ((r.base.val + r.i) % 32) true (Nat.mod_lt _ (by decide))
      recording := if r.i + 1 = r.n then none else some { r with i := r.i + 1 } }
    (r.exec = false → ∃ s', exec i s = .next s' ∧ s'.thread t = captured ∧ unitFrame t s s') ∧
    (r.exec = true → opcodeOf (encode i) ∉ [0x01#8, 0x03#8, 0x04#8] →
      ∃ s', exec i s = .next s' ∧ s'.thread t = { captured with out := captured.out ++ [encode i] } ∧
        unitFrame t s s') ∧
    (r.exec = true → opcodeOf (encode i) ∈ [0x01#8, 0x03#8, 0x04#8] →
      exec i s = .refused .expanderOpcodeDownstream)

/-- Recording n words and playing the same slots back gives, for n up to 32, the n words in order; for n above 32 the
later of two words that share a slot stays; with Exec the n words are emitted as they are recorded too. The slots the
recording does not address keep their contents (41_replay.md R164, R167, R169, R170; the overwriting is the spec's
inference from R164). Said of the unit's functional model. -/
def Obligations.RecordThenPlaybackGivesTheLastWords : Prop :=
  ∀ (u : ReplayUnit) (a b : BitVec 10) (x y : BitVec 2) (e e' : Bool) (ws : List Word),
    u.recording = none → ws.length = replayCount b →
    (replayStream u (encode (.replay a b x e true) :: ws ++ [encode (.replay a b y e' false)])).1 =
      (if e then ws else []) ++
        (List.range ws.length).map (fun i => ws.getD (if i + 32 < ws.length then i + 32 else i) 0) ∧
    ∀ k : Fin 32, (∀ i < ws.length, replaySlot (replayIndex a) i ≠ k) →
      (replayStream u (encode (.replay a b x e true) :: ws)).2.buf[k] = u.buf[k]

/-! Pass-through. -/

/-- At the MOP Expander every word whose opcode is neither 0x01 nor 0x03 passes, whole, in every state: NOP, REPLAY,
RESOURCEDECL, DMANOP, SFPNOP, OTHER (42_passthrough_and_composition.md R190 to R194, 40_mop.md R120). -/
def Obligations.MopExpanderPassesOtherWords : Prop :=
  ∀ (s : State) (t : ThreadId) (i : Instr), s.site = ⟨t, .mopExpander⟩ →
    opcodeOf (encode i) ≠ 0x01#8 → opcodeOf (encode i) ≠ 0x03#8 →
    ∃ s', exec i s = .next s' ∧
      s'.thread t = { s.thread t with postMop := (s.thread t).postMop ++ [encode i] } ∧ unitFrame t s s'

/-- At the Replay Expander, not recording, every word whose opcode is none of 0x01, 0x03, 0x04 passes, whole, to `Out`:
NOP, RESOURCEDECL, DMANOP, SFPNOP, OTHER (42_passthrough_and_composition.md R190 to R194, 41_replay.md R161). -/
def Obligations.ReplayExpanderPassesOtherWords : Prop :=
  ∀ (s : State) (t : ThreadId) (i : Instr), s.site = ⟨t, .replayExpander⟩ → (s.thread t).recording = none →
    opcodeOf (encode i) ∉ [0x01#8, 0x03#8, 0x04#8] →
    ∃ s', exec i s = .next s' ∧
      s'.thread t = { s.thread t with out := (s.thread t).out ++ [encode i] } ∧ unitFrame t s s'

/-- A MOP or MOP_CFG that reaches the Replay Expander, not recording, is not expanded there; its delivery to `Out` is
refused by name (30_encoding.md R93, decision D14, log 14). -/
def Obligations.MopDownstreamIsRefused : Prop :=
  ∀ (s : State) (t : ThreadId), s.site = ⟨t, .replayExpander⟩ → (s.thread t).recording = none →
    (∀ tm c m, exec (.mop tm c m) s = .refused .expanderOpcodeDownstream) ∧
    (∀ r h, exec (.mopCfg r h) s = .refused .expanderOpcodeDownstream)

/-! The units' turns. -/

/-- At its turn, with no expansion in progress, MOP Expander t takes the head of the FIFO and runs the instruction the
word decodes to, at the MOP Expander, with the word gone from the FIFO (40_mop.md R120; 42_passthrough_and_composition.md
R201, the spec's operational reading D15, log 15). -/
def Obligations.MopTurnRunsTheDecodedInstruction : Prop :=
  ∀ (s : State) (t : ThreadId) (turns : List Agent) (w : Word) (rest : List Word),
    s.schedule = .expander ⟨t, .mopExpander⟩ :: turns → (s.thread t).mopPending = [] →
    (s.thread t).fifo = w :: rest →
    ∃ s1, step s = exec (decode w) s1 ∧ s1.site = ⟨t, .mopExpander⟩ ∧ s1.schedule = turns ∧
      s1.thread t = { s.thread t with fifo := rest } ∧ sameThreadsBut t s s1 ∧
      (∀ t', s1.trisc t' = s.trisc t') ∧ s1.brisc = s.brisc ∧ s1.turns = s.turns ∧ s1.draws = s.draws

/-- The same of Replay Expander t and `PostMop`, with no playback in progress (41_replay.md R161;
42_passthrough_and_composition.md R201, the spec's operational reading D15, log 15). -/
def Obligations.ReplayTurnRunsTheDecodedInstruction : Prop :=
  ∀ (s : State) (t : ThreadId) (turns : List Agent) (w : Word) (rest : List Word),
    s.schedule = .expander ⟨t, .replayExpander⟩ :: turns → (s.thread t).playPending = [] →
    (s.thread t).postMop = w :: rest →
    ∃ s1, step s = exec (decode w) s1 ∧ s1.site = ⟨t, .replayExpander⟩ ∧ s1.schedule = turns ∧
      s1.thread t = { s.thread t with postMop := rest } ∧ sameThreadsBut t s s1 ∧
      (∀ t', s1.trisc t' = s.trisc t') ∧ s1.brisc = s.brisc ∧ s1.turns = s.turns ∧ s1.draws = s.draws

/-- A placed instruction is what the very next step runs, at T0's MOP Expander (log 27). -/
def Obligations.PlacedWordRunsNext : Prop :=
  ∀ (s : State) (w : Word),
    ∃ s1, step (s.withFetchWord 32 w.toNat) = exec (decode w) s1 ∧ s1.site = ⟨.t0, .mopExpander⟩ ∧
      s1.thread .t0 = { s.thread .t0 with fifo := (s.thread .t0).fifo.drop 1, mopPending := [], mopBusy := false } ∧
      s1.thread .t1 = s.thread .t1 ∧ s1.thread .t2 = s.thread .t2

/-- While an expansion is in progress, MOP Expander t takes nothing from the FIFO: its turn moves the first pending word
to `PostMop`, and `MopBusy` stays true exactly while words are left (40_mop.md R148; 42_passthrough_and_composition.md
R201, decisions D7, D15, log 8, 15). -/
def Obligations.MopTurnEmitsOnePendingWord : Prop :=
  ∀ (s : State) (t : ThreadId) (w : Word) (rest : List Word), (s.thread t).mopPending = w :: rest →
    ∃ s', agentStep (.expander ⟨t, .mopExpander⟩) s = .next s' ∧
      s'.thread t = { s.thread t with
        mopPending := rest, mopBusy := decide (rest ≠ []), postMop := (s.thread t).postMop ++ [w] } ∧
      unitFrame t s s'

/-- While a playback is in progress, Replay Expander t takes nothing from its input: its turn delivers the first pending
word, and `ReplayBusy` stays true exactly while words are left; a word with an expander's opcode is refused
(41_replay.md R168; 42_passthrough_and_composition.md R201, 30_encoding.md R93, decisions D8, D14, D15, log 9, 14, 15). -/
def Obligations.ReplayTurnDeliversOnePendingWord : Prop :=
  ∀ (s : State) (t : ThreadId) (w : Word) (rest : List Word), (s.thread t).playPending = w :: rest →
    (opcodeOf w ∉ [0x01#8, 0x03#8, 0x04#8] →
      ∃ s', agentStep (.expander ⟨t, .replayExpander⟩) s = .next s' ∧
        s'.thread t = { s.thread t with
          playPending := rest, replayBusy := decide (rest ≠ []), out := (s.thread t).out ++ [w] } ∧
        unitFrame t s s') ∧
    (opcodeOf w ∈ [0x01#8, 0x03#8, 0x04#8] →
      agentStep (.expander ⟨t, .replayExpander⟩) s = .refused .expanderOpcodeDownstream)

/-- An agent that is not enabled, or a core that is held or done, changes nothing at its turn
(42_passthrough_and_composition.md R201, 60_exceptions.md R212). That such a turn is a step is the model's (log 12). -/
def Obligations.IdleTurnsChangeNothing : Prop :=
  (∀ (s : State) (t : ThreadId), (s.thread t).mopPending = [] → (s.thread t).fifo = [] →
    agentStep (.expander ⟨t, .mopExpander⟩) s = .next s) ∧
  (∀ (s : State) (t : ThreadId), (s.thread t).playPending = [] → (s.thread t).postMop = [] →
    agentStep (.expander ⟨t, .replayExpander⟩) s = .next s) ∧
  (∀ (s : State) (t : ThreadId), (s.trisc t).program = [] → agentStep (.core (.trisc t)) s = .next s) ∧
  (∀ s : State, s.brisc.program = [] → agentStep (.core .brisc) s = .next s) ∧
  (∀ (s : State) (c : CoreId) (h : Hold), holdOf c s = some h → agentStep (.core c) s = .next s)

/-! The cores. -/

/-- A push enters the tail of the pushing core's own FIFO while it holds fewer than 32 words, and is held, dropping
nothing, when it holds 32 (10_state.md R23). The hold is the spec's decision D5 (log 6). -/
def Obligations.PushEntersOwnFifoOrIsHeld : Prop :=
  ∀ (s : State) (t : ThreadId) (w : Word) (rest : List TriscAction), (s.trisc t).program = .push w :: rest →
    ((s.thread t).fifo.length < 32 →
      ∃ s', coreStep (.trisc t) s = .next s' ∧
        s'.thread t = { s.thread t with fifo := (s.thread t).fifo ++ [w] } ∧ sameThreadsBut t s s' ∧
        (s'.trisc t).program = rest ∧ coreFrame (.trisc t) s s') ∧
    (32 ≤ (s.thread t).fifo.length →
      coreStep (.trisc t) s = .next s ∧ holdOf (.trisc t) s = some .fifoFull)

/-- A TRISC's aligned 32-bit store to 0xFFB80000 + 4i sets its own thread's MopCfg[i], all 32 bits, and no other
thread's: the same address reaches T0, T1 or T2 by the issuing core, and no store of a TRISC in the window, of any
width, changes another thread (20_memory.md R52, R53). -/
def Obligations.WindowStoreReachesOwnThread : Prop :=
  (∀ (s : State) (t : ThreadId) (i : Fin 9) (v : Word) (rest : List TriscAction),
    (s.trisc t).program = .access (.store (0xFFB80000 + 4 * BitVec.ofNat 32 i.val) 4 v) :: rest →
    (s.thread t).mopBusy = false →
    ∃ s', coreStep (.trisc t) s = .next s' ∧
      s'.thread t = { s.thread t with
        mopCfg := (s.thread t).mopCfg.set i v, cfgWritten := (s.thread t).cfgWritten.set i true } ∧
      sameThreadsBut t s s' ∧ (s'.trisc t).program = rest ∧ coreFrame (.trisc t) s s') ∧
  (∀ (s s' : State) (t : ThreadId) (addr : Word) (width : Nat) (v : Word),
    0xFFB80000 ≤ addr.toNat → addr.toNat ≤ 0xFFB80023 →
    performAccess (.trisc t) (.store addr width v) s = .ok (.next s') → sameThreadsBut t s s')

/-- A store to `MopCfg[t][i]` that takes effect while `MopBusy[t]` is a fault: a TRISC's in the window, BRISC's write, and
BRISC's well-shaped store at its own address of the register, outside the window (20_memory.md R58, the spec's decision
D9, log 10; BRISC's addresses and their shape: log 18, 21). -/
def Obligations.MopCfgStoreDuringExpansionFaults : Prop :=
  (∀ (s : State) (t : ThreadId) (i : Fin 9) (v : Word) (rest : List TriscAction),
    (s.trisc t).program = .access (.store (0xFFB80000 + 4 * BitVec.ofNat 32 i.val) 4 v) :: rest →
    (s.thread t).mopBusy = true → coreStep (.trisc t) s = .fault .mopCfgWriteDuringExpansion) ∧
  (∀ (s : State) (t : ThreadId) (i : Fin 9) (v : Word) (rest : List BriscAction),
    s.brisc.program = .writeMopCfg t i v :: rest →
    (s.thread t).mopBusy = true → coreStep .brisc s = .fault .mopCfgWriteDuringExpansion) ∧
  (∀ (s : State) (t : ThreadId) (i : Fin 9) (addr : Word) (width : Nat) (v : Word),
    briscMopCfgTarget addr = some (t, i) → (s.thread t).mopBusy = true →
    performAccess .brisc (.store addr width v) s =
      if ¬ (width = 4 ∧ addr.toNat % 4 = 0) then .ok (.refused .mopCfgAccessShape)
      else if 0xFFB80000 ≤ addr.toNat ∧ addr.toNat ≤ 0xFFB80023 then .ok (.refused .briscMopCfgWindow)
      else .ok (.fault .mopCfgWriteDuringExpansion))

/-- A load from 0xFFB80000 .. 0xFFB80023 by any core, of any width, has no meaning: `fault MopCfgRead`
(20_memory.md R55). -/
def Obligations.LoadFromMopCfgFaults : Prop :=
  ∀ (s : State) (c : CoreId) (addr : Word) (width : Nat),
    0xFFB80000 ≤ addr.toNat → addr.toNat ≤ 0xFFB80023 →
    performAccess c (.load addr width) s = .ok (.fault .mopCfgRead)

/-- In the window the shape is checked first and then the issuing core: a store that is not 4 bytes at a multiple of 4
is refused whoever issues it, busy or not, and a well-shaped BRISC store is refused (20_memory.md R54, R56, 60_exceptions.md
R213, the spec's decisions D2, D17, log 17, 18). -/
def Obligations.WindowStoresRefusedInOrder : Prop :=
  ∀ (s : State) (addr : Word) (width : Nat) (v : Word), 0xFFB80000 ≤ addr.toNat → addr.toNat ≤ 0xFFB80023 →
    (¬ (width = 4 ∧ addr.toNat % 4 = 0) →
      ∀ c, performAccess c (.store addr width v) s = .ok (.refused .mopCfgAccessShape)) ∧
    ((width = 4 ∧ addr.toNat % 4 = 0) →
      performAccess .brisc (.store addr width v) s = .ok (.refused .briscMopCfgWindow))

/-- Outside the window a TRISC's store at any address but `PC_BUF_BASE + 8`, BRISC's at any address that reaches no
MopCfg register, and any core's load, is refused by name (20_memory.md R52, R54, 60_exceptions.md R212). That loads are
among them, and BRISC's store at `PC_BUF_BASE + 8`, is the model's (log 25). -/
def Obligations.UndescribedAddressesRefused : Prop :=
  ∀ (s : State) (addr : Word) (width : Nat) (v : Word),
    (addr.toNat < 0xFFB80000 ∨ 0xFFB80023 < addr.toNat) →
    (addr ≠ Config.pcBufBase + 8 →
      ∀ t, performAccess (.trisc t) (.store addr width v) s = .ok (.refused .unknownAddress)) ∧
    ((∀ t i, Config.briscMopCfgAddr t i ≠ addr) →
      performAccess .brisc (.store addr width v) s = .ok (.refused .unknownAddress)) ∧
    (∀ c, performAccess c (.load addr width) s = .ok (.refused .unknownAddress))

/-- `mop_sync` completes exactly when the MOP Expander is idle, `MopBusy[t]` false and `Fifo[t]` empty, and changes
nothing; otherwise the core is held. The store of 4 bytes to `PC_BUF_BASE + 8`, where that open parameter is a multiple
of 4 and lies outside the window, is the same action, and a store there of another width, or with the parameter not a
multiple of 4, is refused (20_memory.md R56, R60). That idle asks for an empty FIFO too is the spec's decision D4 (log
5), the shape is D2 (log 18); that the window is looked at first is the model's (log 22). -/
def Obligations.MopSyncWaitsForIdle : Prop :=
  (∀ (s : State) (t : ThreadId) (v : Word) (rest : List TriscAction), (s.trisc t).program = .mopSync v :: rest →
    ((s.thread t).mopBusy = false → (s.thread t).fifo = [] →
      ∃ s', coreStep (.trisc t) s = .next s' ∧ (∀ t', s'.thread t' = s.thread t') ∧
        (s'.trisc t).program = rest ∧ coreFrame (.trisc t) s s') ∧
    (((s.thread t).mopBusy = true ∨ (s.thread t).fifo ≠ []) →
      coreStep (.trisc t) s = .next s ∧ holdOf (.trisc t) s = some .mopSync)) ∧
  (∀ (s : State) (t : ThreadId) (width : Nat) (v : Word),
    performAccess (.trisc t) (.store (Config.pcBufBase + 8) width v) s =
      if 0xFFB80000 ≤ (Config.pcBufBase + 8).toNat ∧ (Config.pcBufBase + 8).toNat ≤ 0xFFB80023 then
        .ok (storeMopCfgWindow (.trisc t) (Config.pcBufBase + 8) width v s)
      else if width = 4 ∧ (Config.pcBufBase + 8).toNat % 4 = 0 then performTrisc t (.mopSync v) s
      else .ok (.refused .mopCfgAccessShape))

/-- TRISC_t's read of CSR 0xBC0 returns, in bits 0, 1, 13 and 14, this thread's replay busy and MOP busy and the OR of
all threads', and has no side effect on the expanders (10_state.md R33, R35; 20_memory.md R59). Here `b t'` is what the
read shows of thread t': its replay busy outside a recording, any value during one (R33). That one `b t` stands in bit 0
and in bit 13 of one read while thread t records is the model's DESIGN CHOICE (log 9); the free values are those of log
9 and 11. -/
def Obligations.QstatusReportsTheBusyFlags : Prop :=
  ∀ (s : State) (t : ThreadId) (rest : List TriscAction), (s.trisc t).program = .access (.csrRead 0xBC0) :: rest →
    ∃ (s' : State) (v : Word) (b : ThreadId → Bool), coreStep (.trisc t) s = .next s' ∧
      (s'.port (.trisc t)).reads = (s.port (.trisc t)).reads ++ [v] ∧
      (∀ t', (s.thread t').recording = none → b t' = (s.thread t').replayBusy) ∧
      v.getLsbD 0 = b t ∧
      v.getLsbD 1 = (s.thread t).mopBusy ∧
      v.getLsbD 13 = (b .t0 || b .t1 || b .t2) ∧
      v.getLsbD 14 = ((s.thread .t0).mopBusy || (s.thread .t1).mopBusy || (s.thread .t2).mopBusy) ∧
      (∀ t', s'.thread t' = s.thread t') ∧ (s'.trisc t).program = rest ∧
      (s'.port (.trisc t)).gathering = (s.port (.trisc t)).gathering ∧
      (∀ c, c ≠ .trisc t → s'.port c = s.port c)

/-- BRISC's push enters `PostMop[t]`, after the MOP Expander, for the thread it names (42_passthrough_and_composition.md
R199, decision D12, log 12), and its MopCfg write sets `MopCfg[t][i]` while no expansion is in progress (20_memory.md
R54). Its well-shaped store at its own address of a register, outside the window, is the same write, and each of its 27
addresses reaches a register (the addresses, their shape and the order of the checks: log 18, 21). -/
def Obligations.BriscActsAfterTheMopExpander : Prop :=
  (∀ (s : State) (t : ThreadId) (w : Word) (rest : List BriscAction), s.brisc.program = .pushPostMop t w :: rest →
    ∃ s', coreStep .brisc s = .next s' ∧
      s'.thread t = { s.thread t with postMop := (s.thread t).postMop ++ [w] } ∧ sameThreadsBut t s s' ∧
      s'.brisc.program = rest ∧ coreFrame .brisc s s') ∧
  (∀ (s : State) (t : ThreadId) (i : Fin 9) (v : Word) (rest : List BriscAction),
    s.brisc.program = .writeMopCfg t i v :: rest → (s.thread t).mopBusy = false →
    ∃ s', coreStep .brisc s = .next s' ∧
      s'.thread t = { s.thread t with
        mopCfg := (s.thread t).mopCfg.set i v, cfgWritten := (s.thread t).cfgWritten.set i true } ∧
      sameThreadsBut t s s' ∧ s'.brisc.program = rest ∧ coreFrame .brisc s s') ∧
  (∀ (s : State) (t : ThreadId) (i : Fin 9) (addr : Word) (width : Nat) (v : Word),
    briscMopCfgTarget addr = some (t, i) →
    Config.briscMopCfgAddr t i = addr ∧
    performAccess .brisc (.store addr width v) s =
      if ¬ (width = 4 ∧ addr.toNat % 4 = 0) then .ok (.refused .mopCfgAccessShape)
      else if 0xFFB80000 ≤ addr.toNat ∧ addr.toNat ≤ 0xFFB80023 then .ok (.refused .briscMopCfgWindow)
      else performBrisc (.writeMopCfg t i v) s) ∧
  (∀ t i, ∃ p, briscMopCfgTarget (Config.briscMopCfgAddr t i) = some p)

/-- CSR accesses without a meaning are refused by name: BRISC's read of 0xBC0, any use of the "TTSync CSR"
(10_state.md R37, R39), a write of the read-only 0xBC0 (R35), and every CSR the spec does not describe (the name of
these two refusals is the model's, log 23). -/
def Obligations.CsrAccessesRefusedByName : Prop :=
  ∀ s : State,
    performAccess .brisc (.csrRead 0xBC0) s = .ok (.refused .briscQstatusRead) ∧
    (∀ c, performAccess c .ttSync s = .ok (.refused .ttSyncCsr)) ∧
    (∀ csr : Nat, csr ≠ 0xBC0 → csr ≠ 0x7C0 →
      ∀ c v, let reason := if csr = Config.ttSyncCsr then Refusal.ttSyncCsr else .csrNotDescribed
        performAccess c (.csrRead csr) s = .ok (.refused reason) ∧
        performAccess c (.csrWrite csr v) s = .ok (.refused reason)) ∧
    (∀ c v, performAccess c (.csrWrite 0xBC0 v) s = .ok (.refused .csrNotDescribed))

/-- CSR 0x7C0 bit 18 has no effect. No unit's turn looks at a core's port, the bit among it, and none changes it: with
any port in place the same turn gives the same outcome. And with either value of a core's bit in place every agent's
turn, a core's too, gives the same outcome but for that bit (10_state.md R38, 30_encoding.md R114). That the bit acts on
no rule is the spec's decision D11; that it is one inert bit of each core is the model's (log 4). -/
def Obligations.GatheringBitHasNoEffect : Prop :=
  (∀ (s : State) (site : Site) (c : CoreId) (p : CorePort),
    expanderStep site (s.setPort c p) =
      match expanderStep site s with
      | .next s' => .next (s'.setPort c p)
      | .fault f => .fault f
      | .refused r => .refused r) ∧
  (∀ (s : State) (a : Agent) (c : CoreId) (bit : Bool),
    let put (s : State) (bit : Bool) : State := s.setPort c { s.port c with gathering := bit }
    match agentStep a s with
    | .next s' => ∃ bit', agentStep a (put s bit) = .next (put s' bit')
    | .fault f => agentStep a (put s bit) = .fault f
    | .refused r => agentStep a (put s bit) = .refused r)

/-- The nine stores of Template 1's programming, made in nine turns of TRISC_t while no expansion is in progress, leave
MopCfg[t] as programmed and every other thread alone (30_encoding.md R113, R115; 20_memory.md R64, decision D3,
log 19). -/
def Obligations.ProgrammingTemplate1SetsAllNine : Prop :=
  ∀ (s : State) (t : ThreadId) (cfg : MopCfg) (rest : List TriscAction) (turns : List Agent),
    (s.trisc t).program = programTemplate1 cfg ++ rest → (s.thread t).mopBusy = false →
    s.schedule = List.replicate 9 (.core (.trisc t)) ++ turns →
    ∃ s' : State, Sys2Proof.core.run 9 s = .next s' ∧
      (s'.thread t).mopCfg = cfg ∧ (s'.trisc t).program = rest ∧ s'.schedule = turns ∧ sameThreadsBut t s s'

/-! The whole machine. -/

/-- At the start of a run: FIFO, pending lists and streams empty, MaskHi 0, both busy flags false, not recording
(10_state.md R44, 70_reset_and_hazards.md R240: values of the source's software sketches, the spec's decision D1,
log 3). -/
def Obligations.ResetStateOfTheThreads : Prop :=
  ∀ t, (State.reset.thread t).fifo = [] ∧ (State.reset.thread t).maskHi = 0 ∧
    (State.reset.thread t).mopBusy = false ∧ (State.reset.thread t).replayBusy = false ∧
    (State.reset.thread t).recording = none ∧ (State.reset.thread t).mopPending = [] ∧
    (State.reset.thread t).playPending = [] ∧ (State.reset.thread t).postMop = [] ∧ (State.reset.thread t).out = []

/-- The invariant holds at the start of a run (its values: log 3). -/
def Obligations.ResetMeetsTheInvariant : Prop := Inv State.reset

/-- Every step keeps the invariant: at most 32 words in a FIFO, `MopBusy` exactly while an expansion is in progress and
`ReplayBusy` exactly while a playback is, no expansion above 32639 words and no playback above 64, every recording
legal and none open during a playback, no expander opcode delivered (10_state.md R23, R28, R31 to R33, 40_mop.md R147,
41_replay.md R172, 30_encoding.md R93; the busy bits, the full FIFO and the refused opcodes are the spec's decisions D5,
D7, D8, D14, log 6, 8, 9, 14). -/
def Obligations.StepKeepsTheInvariant : Prop :=
  ∀ s s' : State, Inv s → step s = .next s' → Inv s'

/-- Only a core's store changes MopCfg: no unit's turn does, and a core's turn does only when the core's next action is a
store to the register that changes, of the value it gets: TRISC_t's word store in the window, which reaches its own
thread only, BRISC's write, or BRISC's word store at its own address; and thread t's MOP Expander is not busy
(10_state.md R24, R41, 20_memory.md R52 to R54; R58, decision D9, log 10; BRISC's addresses: log 21). -/
def Obligations.MopCfgChangesOnlyByStores : Prop :=
  ∀ (a : Agent) (s s' : State) (t : ThreadId), agentStep a s = .next s' →
    (s'.thread t).mopCfg ≠ (s.thread t).mopCfg →
    (s.thread t).mopBusy = false ∧
      ∃ (c : CoreId) (i : Fin 9) (v : Word), a = .core c ∧ nextStoresMopCfg c t i v s ∧
        (s'.thread t).mopCfg = (s.thread t).mopCfg.set i v

/-- Only a MOP_CFG that thread t's MOP Expander takes changes MaskHi[t], and it becomes its low 16 bits
(10_state.md R26, 40_mop.md R122). -/
def Obligations.MaskHiChangesOnlyByMopCfg : Prop :=
  ∀ (a : Agent) (s s' : State) (t : ThreadId), agentStep a s = .next s' →
    (s'.thread t).maskHi ≠ (s.thread t).maskHi →
    a = .expander ⟨t, .mopExpander⟩ ∧ (s.thread t).mopPending = [] ∧
      ∃ w rest, (s.thread t).fifo = w :: rest ∧ opcodeOf w = 0x03#8 ∧ (s'.thread t).maskHi = w.extractLsb' 0 16

/-- Only a recording changes the replay buffer, one slot a word, and never during a playback (10_state.md R29,
41_replay.md R164, R168). -/
def Obligations.ReplayBufChangesOnlyByRecording : Prop :=
  ∀ (a : Agent) (s s' : State) (t : ThreadId), agentStep a s = .next s' →
    (s'.thread t).replayBuf ≠ (s.thread t).replayBuf →
    a = .expander ⟨t, .replayExpander⟩ ∧ (s.thread t).playPending = [] ∧
      ∃ r w rest, (s.thread t).recording = some r ∧ (s.thread t).postMop = w :: rest ∧
        (s'.thread t).replayBuf = (s.thread t).replayBuf.set ((r.base.val + r.i) % 32) w (Nat.mod_lt _ (by decide))

/-- The threads share no state: a turn of thread t's units or of TRISC_t leaves every other thread as it was, and looks
at none: with any state of another thread in place it gives the same outcome, but for TRISC_t's read of CSR 0xBC0, whose
bits 13 and 14 report all threads (10_state.md R35, R41, 20_memory.md R65, 60_exceptions.md R219). -/
def Obligations.ThreadsShareNoState : Prop :=
  (∀ (a : Agent) (s s' : State) (t : ThreadId),
    (a = .expander ⟨t, .mopExpander⟩ ∨ a = .expander ⟨t, .replayExpander⟩ ∨ a = .core (.trisc t)) →
    agentStep a s = .next s' → sameThreadsBut t s s') ∧
  (∀ (a : Agent) (s : State) (t u : ThreadId) (th : ThreadState),
    (a = .expander ⟨t, .mopExpander⟩ ∨ a = .expander ⟨t, .replayExpander⟩ ∨
      (a = .core (.trisc t) ∧ ∀ rest, (s.trisc t).program ≠ .access (.csrRead 0xBC0) :: rest)) →
    u ≠ t →
    agentStep a (s.setThread u th) =
      match agentStep a s with
      | .next s' => .next (s'.setThread u th)
      | .fault f => .fault f
      | .refused r => .refused r)

/-- The MOP Expander's instructions are the functional model `F_mop`, word by word: what the unit has emitted or has
pending grows by `F_mop`'s words, and MaskHi becomes `F_mop`'s (40_mop.md R120). -/
def Obligations.MopExpanderRefinesItsModel : Prop :=
  ∀ (s : State) (t : ThreadId) (w : Word), s.site = ⟨t, .mopExpander⟩ → (s.thread t).mopPending = [] →
    ∃ s', exec (decode w) s = .next s' ∧
      (s'.thread t).postMop ++ (s'.thread t).mopPending =
        (s.thread t).postMop ++ (mopModel (s.thread t).mopCfg (s.thread t).maskHi w).1 ∧
      (s'.thread t).maskHi = (mopModel (s.thread t).mopCfg (s.thread t).maskHi w).2 ∧ unitFrame t s s'

/-- The Replay Expander's instructions are the functional model `F_replay`, word by word, wherever they answer a next
state; they answer one unless the model passes the word itself downstream with an expander's opcode (41_replay.md R161,
30_encoding.md R93). -/
def Obligations.ReplayExpanderRefinesItsModel : Prop :=
  ∀ (s : State) (t : ThreadId) (w : Word), s.site = ⟨t, .replayExpander⟩ → (s.thread t).playPending = [] →
    let m := replayModel { buf := (s.thread t).replayBuf, recording := (s.thread t).recording } w
    let passes : Prop := (∃ r, (s.thread t).recording = some r ∧ r.exec = true) ∨
      ((s.thread t).recording = none ∧ opcodeOf w ≠ 0x04#8)
    (passes → opcodeOf w ∈ [0x01#8, 0x03#8, 0x04#8] → exec (decode w) s = .refused .expanderOpcodeDownstream) ∧
    (¬ (passes ∧ opcodeOf w ∈ [0x01#8, 0x03#8, 0x04#8]) →
      ∃ s', exec (decode w) s = .next s' ∧
        (s'.thread t).out ++ (s'.thread t).playPending = (s.thread t).out ++ m.1 ∧
        (s'.thread t).replayBuf = m.2.buf ∧ (s'.thread t).recording = m.2.recording ∧ unitFrame t s s')

/-- Whatever unit takes its turn, what every thread comes to is the same: the words `Out[t]` will hold, MaskHi, the
buffer and the recording, once all that waits has gone through both functional models
(42_passthrough_and_composition.md R196, 20_memory.md R63; R202 is the spec's inference). -/
def Obligations.UnitTurnsKeepWhatAThreadComesTo : Prop :=
  ∀ (site : Site) (s s' : State) (t : ThreadId), expanderStep site s = .next s' →
    (s'.thread t).settled = (s.thread t).settled

/-- With the cores done, whatever the schedule and however long the run, a thread that has come to rest has delivered
exactly `F_replay(F_mop(what waited))` and holds the MaskHi, buffer and recording of those models
(42_passthrough_and_composition.md R196, R204; R202 is the spec's inference). Runs whose cores still act are the matter
of `Obligations.TurnsKeepWhatAThreadWillDeliver`, the statement about one step. -/
def Obligations.OutputDoesNotDependOnTheSchedule : Prop :=
  ∀ (k : Nat) (s s' : State) (t : ThreadId), coresDone s = true → Sys2Proof.core.run k s = .next s' →
    (s'.thread t).quiescent = true →
    ((s'.thread t).out, (s'.thread t).maskHi,
      ({ buf := (s'.thread t).replayBuf, recording := (s'.thread t).recording } : ReplayUnit)) =
      (s.thread t).settled

/-- A run has ended when all threads are quiescent and the cores have no further action, and then it is final unless a
recording is open (42_passthrough_and_composition.md R204). That an open recording is not final is the spec's decision
D16 (log 16). -/
def Obligations.RunStatusAtTheEnd : Prop :=
  ∀ s : State,
    (runStatus s ≠ .running ↔
      (∀ t, (s.thread t).fifo = [] ∧ (s.thread t).mopPending = [] ∧ (s.thread t).postMop = [] ∧
        (s.thread t).playPending = [] ∧ (s.trisc t).program = []) ∧ s.brisc.program = []) ∧
    (runStatus s = .stuckRecordingIncomplete → ∃ t r, (s.thread t).recording = some r) ∧
    (runStatus s = .final → ∀ t, (s.thread t).recording = none)

/-- A core's turn whose action is a read or a write of CSR 0x7C0 completes in every state, for every core: a read returns
some value, a write keeps bit 18 of its value, and nothing else changes, no thread, no other core (10_state.md R38, R50;
93_implementation_defined.md U20). That a read returns a free value and that a write keeps nothing but bit 18 is the
model's (log 4), the record of reads too (log 20). -/
def Obligations.GatherCsrAccessesComplete : Prop :=
  (∀ (s : State) (t : ThreadId) (rest : List TriscAction), (s.trisc t).program = .access (.csrRead 0x7C0) :: rest →
    ∃ (s' : State) (v : Word), coreStep (.trisc t) s = .next s' ∧ (s'.trisc t).program = rest ∧
      s'.port (.trisc t) = { s.port (.trisc t) with reads := (s.port (.trisc t)).reads ++ [v] } ∧
      portFrame (.trisc t) s s') ∧
  (∀ (s : State) (t : ThreadId) (v : Word) (rest : List TriscAction),
    (s.trisc t).program = .access (.csrWrite 0x7C0 v) :: rest →
    ∃ s' : State, coreStep (.trisc t) s = .next s' ∧ (s'.trisc t).program = rest ∧
      s'.port (.trisc t) = { s.port (.trisc t) with gathering := v.getLsbD 18 } ∧
      s'.draws = s.draws ∧ portFrame (.trisc t) s s') ∧
  (∀ (s : State) (rest : List BriscAction), s.brisc.program = .access (.csrRead 0x7C0) :: rest →
    ∃ (s' : State) (v : Word), coreStep .brisc s = .next s' ∧ s'.brisc.program = rest ∧
      s'.port .brisc = { s.port .brisc with reads := (s.port .brisc).reads ++ [v] } ∧ portFrame .brisc s s') ∧
  (∀ (s : State) (v : Word) (rest : List BriscAction), s.brisc.program = .access (.csrWrite 0x7C0 v) :: rest →
    ∃ s' : State, coreStep .brisc s = .next s' ∧ s'.brisc.program = rest ∧
      s'.port .brisc = { s.port .brisc with gathering := v.getLsbD 18 } ∧ s'.draws = s.draws ∧ portFrame .brisc s s')

/-- Whoever takes its turn, cores that still act among them, what thread t will deliver is settled: while no store to its
MopCfg and no push of BRISC's to it is to come, every step keeps both that and the words `Out[t]` will hold, with MaskHi,
buffer and recording, once TRISC_t has pushed all it has still to push and all has gone through both functional models
(42_passthrough_and_composition.md R196 and, where no store to MopCfg is to come, R202, which is the spec's inference). -/
def Obligations.TurnsKeepWhatAThreadWillDeliver : Prop :=
  ∀ (s s' : State) (t : ThreadId), s.undisturbed t = true → step s = .next s' →
    s'.undisturbed t = true ∧ s'.outcome t = s.outcome t
end

