-- ==== Sys2Proof/Laws/Decode.lean ====
section
/-! SUPPORT. The bits of an encoded word: what a field placed in a word has at each bit, and the opcode byte of every
row (spec/30_encoding.md R80 to R84). -/

namespace Sys2Proof

theorem fieldAt_getLsbD {n : Nat} (field : BitVec n) (lo k : Nat) (hk : k < 32) :
    (fieldAt field lo).getLsbD k = (decide (lo ≤ k) && field.getLsbD (k - lo)) := by
  unfold fieldAt
  simp only [BitVec.getLsbD_shiftLeft, BitVec.getLsbD_setWidth]
  by_cases h : k < lo
  · simp [h, Nat.not_le.2 h]
  · have : k - lo < 32 := by omega
    simp [h, hk, Nat.le_of_not_lt h, this]

theorem fieldAt_getElem {n : Nat} (field : BitVec n) (lo k : Nat) (hk : k < 32) :
    (fieldAt field lo)[k] = (decide (lo ≤ k) && field.getLsbD (k - lo)) := by
  rw [← BitVec.getLsbD_eq_getElem, fieldAt_getLsbD _ _ _ hk]

/-- The opcode byte of an instruction (R81 to R84). -/
def opcodeByte : Instr → BitVec 8
  | .mop _ _ _ => 0x01
  | .nop _ => 0x02
  | .mopCfg _ _ => 0x03
  | .replay _ _ _ _ _ => 0x04
  | .resourcedecl _ => 0x05
  | .dmanop _ => 0x60
  | .sfpnop _ => 0x8F
  | .other opcode _ => opcode

theorem opcodeOf_encode (i : Instr) : opcodeOf (encode i) = opcodeByte i := by
  cases i <;> (unfold opcodeOf encode opcodeByte; ext k hk; interval_cases k <;> simp [fieldAt_getElem])

theorem templateOfBit_templateBit (t : Template) : templateOfBit (templateBit t) = t := by cases t <;> rfl

theorem templateBit_templateOfBit (b : Bool) : templateBit (templateOfBit b) = b := by cases b <;> rfl

end Sys2Proof
end

