-- ==== Sys2Proof/Laws/State.lean ====
section
/-! SUPPORT. One lemma per field per update, all true by definition: the accessors of threads, cores and ports
against their setters, and every movement within a thread against every field of a thread. -/

namespace Sys2Proof.Machine

/-! Threads. -/

@[simp] theorem State.thread_setThread_same (s : State) (t : ThreadId) (th : ThreadState) :
    (s.setThread t th).thread t = th := by cases t <;> rfl

@[simp] theorem State.thread_setThread_ne (s : State) (t t' : ThreadId) (th : ThreadState) (h : t' ≠ t) :
    (s.setThread t th).thread t' = s.thread t' := by
  cases t <;> cases t' <;> first | rfl | exact absurd rfl h

@[simp] theorem State.setThread_thread (s : State) (t : ThreadId) : s.setThread t (s.thread t) = s := by
  cases t <;> rfl

@[simp] theorem State.setThread_setThread (s : State) (t : ThreadId) (a b : ThreadState) :
    (s.setThread t a).setThread t b = s.setThread t b := by cases t <;> rfl

@[simp] theorem State.setThread_brisc (s : State) (t : ThreadId) (th : ThreadState) :
    (s.setThread t th).brisc = s.brisc := by cases t <;> rfl

@[simp] theorem State.setThread_site (s : State) (t : ThreadId) (th : ThreadState) :
    (s.setThread t th).site = s.site := by cases t <;> rfl

@[simp] theorem State.setThread_schedule (s : State) (t : ThreadId) (th : ThreadState) :
    (s.setThread t th).schedule = s.schedule := by cases t <;> rfl

@[simp] theorem State.setThread_turns (s : State) (t : ThreadId) (th : ThreadState) :
    (s.setThread t th).turns = s.turns := by cases t <;> rfl

@[simp] theorem State.setThread_draws (s : State) (t : ThreadId) (th : ThreadState) :
    (s.setThread t th).draws = s.draws := by cases t <;> rfl

@[simp] theorem State.setThread_trisc (s : State) (t t' : ThreadId) (th : ThreadState) :
    (s.setThread t th).trisc t' = s.trisc t' := by cases t <;> cases t' <;> rfl

@[simp] theorem State.setThread_port (s : State) (t : ThreadId) (c : CoreId) (th : ThreadState) :
    (s.setThread t th).port c = s.port c := by cases c <;> simp [State.port]

@[simp] theorem State.setSite_thread (s : State) (x : Site) (t : ThreadId) : (s.setSite x).thread t = s.thread t := by
  cases t <;> rfl

@[simp] theorem State.setSite_trisc (s : State) (x : Site) (t : ThreadId) : (s.setSite x).trisc t = s.trisc t := by
  cases t <;> rfl

@[simp] theorem State.setSite_port (s : State) (x : Site) (c : CoreId) : (s.setSite x).port c = s.port c := by
  cases c <;> simp [State.port]; rfl

@[simp] theorem State.setSite_site (s : State) (x : Site) : (s.setSite x).site = x := rfl

theorem State.setSite_setThread (s : State) (x : Site) (t : ThreadId) (th : ThreadState) :
    (s.setSite x).setThread t th = (s.setThread t th).setSite x := by cases t <;> rfl

@[simp] theorem State.setSite_brisc (s : State) (x : Site) : (s.setSite x).brisc = s.brisc := rfl

@[simp] theorem State.setSite_schedule (s : State) (x : Site) : (s.setSite x).schedule = s.schedule := rfl

@[simp] theorem State.setSite_turns (s : State) (x : Site) : (s.setSite x).turns = s.turns := rfl

@[simp] theorem State.setSite_draws (s : State) (x : Site) : (s.setSite x).draws = s.draws := rfl

@[simp] theorem State.thread_with_schedule (s : State) (x : List Agent) (t : ThreadId) :
    ({ s with schedule := x } : State).thread t = s.thread t := by cases t <;> rfl

@[simp] theorem State.trisc_with_schedule (s : State) (x : List Agent) (t : ThreadId) :
    ({ s with schedule := x } : State).trisc t = s.trisc t := by cases t <;> rfl

@[simp] theorem State.thread_with_turns (s : State) (x : Nat) (t : ThreadId) :
    ({ s with turns := x } : State).thread t = s.thread t := by cases t <;> rfl

@[simp] theorem State.trisc_with_turns (s : State) (x : Nat) (t : ThreadId) :
    ({ s with turns := x } : State).trisc t = s.trisc t := by cases t <;> rfl

@[simp] theorem State.setTriscProgram_thread (s : State) (t t' : ThreadId) (p : List TriscAction) :
    (s.setTriscProgram t p).thread t' = s.thread t' := by cases t <;> cases t' <;> rfl

@[simp] theorem State.setTriscProgram_program (s : State) (t : ThreadId) (p : List TriscAction) :
    ((s.setTriscProgram t p).trisc t).program = p := by cases t <;> rfl

@[simp] theorem State.setTriscProgram_trisc_ne (s : State) (t t' : ThreadId) (p : List TriscAction) (h : t' ≠ t) :
    (s.setTriscProgram t p).trisc t' = s.trisc t' := by
  cases t <;> cases t' <;> first | rfl | exact absurd rfl h

@[simp] theorem State.setTriscProgram_port (s : State) (t : ThreadId) (p : List TriscAction) (c : CoreId) :
    (s.setTriscProgram t p).port c = s.port c := by
  cases c with
  | trisc t' => cases t <;> cases t' <;> rfl
  | brisc => cases t <;> rfl

@[simp] theorem State.setTriscProgram_brisc (s : State) (t : ThreadId) (p : List TriscAction) :
    (s.setTriscProgram t p).brisc = s.brisc := by cases t <;> rfl

@[simp] theorem State.setTriscProgram_site (s : State) (t : ThreadId) (p : List TriscAction) :
    (s.setTriscProgram t p).site = s.site := by cases t <;> rfl

@[simp] theorem State.setTriscProgram_schedule (s : State) (t : ThreadId) (p : List TriscAction) :
    (s.setTriscProgram t p).schedule = s.schedule := by cases t <;> rfl

@[simp] theorem State.setTriscProgram_turns (s : State) (t : ThreadId) (p : List TriscAction) :
    (s.setTriscProgram t p).turns = s.turns := by cases t <;> rfl

@[simp] theorem State.setTriscProgram_draws (s : State) (t : ThreadId) (p : List TriscAction) :
    (s.setTriscProgram t p).draws = s.draws := by cases t <;> rfl

@[simp] theorem State.setBriscProgram_thread (s : State) (t : ThreadId) (p : List BriscAction) :
    (s.setBriscProgram p).thread t = s.thread t := by cases t <;> rfl

@[simp] theorem State.setBriscProgram_trisc (s : State) (t : ThreadId) (p : List BriscAction) :
    (s.setBriscProgram p).trisc t = s.trisc t := by cases t <;> rfl

@[simp] theorem State.setBriscProgram_program (s : State) (p : List BriscAction) :
    (s.setBriscProgram p).brisc.program = p := rfl

/-! Cores. -/

@[simp] theorem State.trisc_setTrisc_same (s : State) (t : ThreadId) (c : TriscState) :
    (s.setTrisc t c).trisc t = c := by cases t <;> rfl

@[simp] theorem State.trisc_setTrisc_ne (s : State) (t t' : ThreadId) (c : TriscState) (h : t' ≠ t) :
    (s.setTrisc t c).trisc t' = s.trisc t' := by
  cases t <;> cases t' <;> first | rfl | exact absurd rfl h

@[simp] theorem State.setTrisc_thread (s : State) (t t' : ThreadId) (c : TriscState) :
    (s.setTrisc t c).thread t' = s.thread t' := by cases t <;> cases t' <;> rfl

@[simp] theorem State.setTrisc_brisc (s : State) (t : ThreadId) (c : TriscState) :
    (s.setTrisc t c).brisc = s.brisc := by cases t <;> rfl

@[simp] theorem State.setTrisc_site (s : State) (t : ThreadId) (c : TriscState) :
    (s.setTrisc t c).site = s.site := by cases t <;> rfl

@[simp] theorem State.setTrisc_schedule (s : State) (t : ThreadId) (c : TriscState) :
    (s.setTrisc t c).schedule = s.schedule := by cases t <;> rfl

@[simp] theorem State.setTrisc_turns (s : State) (t : ThreadId) (c : TriscState) :
    (s.setTrisc t c).turns = s.turns := by cases t <;> rfl

@[simp] theorem State.setTrisc_draws (s : State) (t : ThreadId) (c : TriscState) :
    (s.setTrisc t c).draws = s.draws := by cases t <;> rfl

@[simp] theorem State.port_setPort_same (s : State) (c : CoreId) (p : CorePort) : (s.setPort c p).port c = p := by
  cases c <;> simp [State.setPort, State.port]

@[simp] theorem State.setPort_thread (s : State) (c : CoreId) (p : CorePort) (t : ThreadId) :
    (s.setPort c p).thread t = s.thread t := by
  cases c
  · simp [State.setPort]
  · cases t <;> rfl

@[simp] theorem State.setPort_trisc_program (s : State) (c : CoreId) (p : CorePort) (t : ThreadId) :
    ((s.setPort c p).trisc t).program = (s.trisc t).program := by
  cases c with
  | trisc t' => cases t <;> cases t' <;> rfl
  | brisc => cases t <;> rfl

@[simp] theorem State.setPort_brisc_program (s : State) (c : CoreId) (p : CorePort) :
    (s.setPort c p).brisc.program = s.brisc.program := by
  cases c <;> simp [State.setPort]

@[simp] theorem State.setPort_site (s : State) (c : CoreId) (p : CorePort) :
    (s.setPort c p).site = s.site := by cases c <;> simp [State.setPort]

@[simp] theorem State.setPort_schedule (s : State) (c : CoreId) (p : CorePort) :
    (s.setPort c p).schedule = s.schedule := by cases c <;> simp [State.setPort]

@[simp] theorem State.setPort_turns (s : State) (c : CoreId) (p : CorePort) :
    (s.setPort c p).turns = s.turns := by cases c <;> simp [State.setPort]

@[simp] theorem State.setPort_draws (s : State) (c : CoreId) (p : CorePort) :
    (s.setPort c p).draws = s.draws := by cases c <;> simp [State.setPort]

@[simp] theorem State.countDraw_thread (s : State) (t : ThreadId) : s.countDraw.thread t = s.thread t := by
  cases t <;> rfl

@[simp] theorem State.countDraw_port (s : State) (c : CoreId) : s.countDraw.port c = s.port c := by
  cases c with
  | trisc t => cases t <;> rfl
  | brisc => rfl

@[simp] theorem State.countDraw_draws (s : State) : s.countDraw.draws = s.draws + 1 := rfl

/-! Movements within a thread. -/

section
variable (th : ThreadState)

@[simp] theorem ThreadState.setFifo_fifo (x : List Word) : (th.setFifo x).fifo = x := rfl
@[simp] theorem ThreadState.setFifo_mopCfg (x : List Word) : (th.setFifo x).mopCfg = th.mopCfg := rfl
@[simp] theorem ThreadState.setFifo_maskHi (x : List Word) : (th.setFifo x).maskHi = th.maskHi := rfl
@[simp] theorem ThreadState.setFifo_mopPending (x : List Word) : (th.setFifo x).mopPending = th.mopPending := rfl
@[simp] theorem ThreadState.setFifo_mopBusy (x : List Word) : (th.setFifo x).mopBusy = th.mopBusy := rfl
@[simp] theorem ThreadState.setFifo_postMop (x : List Word) : (th.setFifo x).postMop = th.postMop := rfl
@[simp] theorem ThreadState.setFifo_replayBuf (x : List Word) : (th.setFifo x).replayBuf = th.replayBuf := rfl
@[simp] theorem ThreadState.setFifo_recording (x : List Word) : (th.setFifo x).recording = th.recording := rfl
@[simp] theorem ThreadState.setFifo_playPending (x : List Word) : (th.setFifo x).playPending = th.playPending := rfl
@[simp] theorem ThreadState.setFifo_replayBusy (x : List Word) : (th.setFifo x).replayBusy = th.replayBusy := rfl
@[simp] theorem ThreadState.setFifo_out (x : List Word) : (th.setFifo x).out = th.out := rfl
@[simp] theorem ThreadState.setFifo_cfgWritten (x : List Word) : (th.setFifo x).cfgWritten = th.cfgWritten := rfl
@[simp] theorem ThreadState.setFifo_slotWritten (x : List Word) : (th.setFifo x).slotWritten = th.slotWritten := rfl

@[simp] theorem ThreadState.setPostMop_fifo (x : List Word) : (th.setPostMop x).fifo = th.fifo := rfl
@[simp] theorem ThreadState.setPostMop_mopCfg (x : List Word) : (th.setPostMop x).mopCfg = th.mopCfg := rfl
@[simp] theorem ThreadState.setPostMop_maskHi (x : List Word) : (th.setPostMop x).maskHi = th.maskHi := rfl
@[simp] theorem ThreadState.setPostMop_mopPending (x : List Word) : (th.setPostMop x).mopPending = th.mopPending := rfl
@[simp] theorem ThreadState.setPostMop_mopBusy (x : List Word) : (th.setPostMop x).mopBusy = th.mopBusy := rfl
@[simp] theorem ThreadState.setPostMop_postMop (x : List Word) : (th.setPostMop x).postMop = x := rfl
@[simp] theorem ThreadState.setPostMop_replayBuf (x : List Word) : (th.setPostMop x).replayBuf = th.replayBuf := rfl
@[simp] theorem ThreadState.setPostMop_recording (x : List Word) : (th.setPostMop x).recording = th.recording := rfl
@[simp] theorem ThreadState.setPostMop_playPending (x : List Word) : (th.setPostMop x).playPending = th.playPending := rfl
@[simp] theorem ThreadState.setPostMop_replayBusy (x : List Word) : (th.setPostMop x).replayBusy = th.replayBusy := rfl
@[simp] theorem ThreadState.setPostMop_out (x : List Word) : (th.setPostMop x).out = th.out := rfl
@[simp] theorem ThreadState.setPostMop_cfgWritten (x : List Word) : (th.setPostMop x).cfgWritten = th.cfgWritten := rfl
@[simp] theorem ThreadState.setPostMop_slotWritten (x : List Word) : (th.setPostMop x).slotWritten = th.slotWritten := rfl

@[simp] theorem ThreadState.setMaskHi_fifo (x : BitVec 16) : (th.setMaskHi x).fifo = th.fifo := rfl
@[simp] theorem ThreadState.setMaskHi_mopCfg (x : BitVec 16) : (th.setMaskHi x).mopCfg = th.mopCfg := rfl
@[simp] theorem ThreadState.setMaskHi_maskHi (x : BitVec 16) : (th.setMaskHi x).maskHi = x := rfl
@[simp] theorem ThreadState.setMaskHi_mopPending (x : BitVec 16) : (th.setMaskHi x).mopPending = th.mopPending := rfl
@[simp] theorem ThreadState.setMaskHi_mopBusy (x : BitVec 16) : (th.setMaskHi x).mopBusy = th.mopBusy := rfl
@[simp] theorem ThreadState.setMaskHi_postMop (x : BitVec 16) : (th.setMaskHi x).postMop = th.postMop := rfl
@[simp] theorem ThreadState.setMaskHi_replayBuf (x : BitVec 16) : (th.setMaskHi x).replayBuf = th.replayBuf := rfl
@[simp] theorem ThreadState.setMaskHi_recording (x : BitVec 16) : (th.setMaskHi x).recording = th.recording := rfl
@[simp] theorem ThreadState.setMaskHi_playPending (x : BitVec 16) : (th.setMaskHi x).playPending = th.playPending := rfl
@[simp] theorem ThreadState.setMaskHi_replayBusy (x : BitVec 16) : (th.setMaskHi x).replayBusy = th.replayBusy := rfl
@[simp] theorem ThreadState.setMaskHi_out (x : BitVec 16) : (th.setMaskHi x).out = th.out := rfl
@[simp] theorem ThreadState.setMaskHi_cfgWritten (x : BitVec 16) : (th.setMaskHi x).cfgWritten = th.cfgWritten := rfl
@[simp] theorem ThreadState.setMaskHi_slotWritten (x : BitVec 16) : (th.setMaskHi x).slotWritten = th.slotWritten := rfl

@[simp] theorem ThreadState.pushFifo_fifo (w : Word) : (th.pushFifo w).fifo = th.fifo ++ [w] := rfl
@[simp] theorem ThreadState.pushFifo_mopCfg (w : Word) : (th.pushFifo w).mopCfg = th.mopCfg := rfl
@[simp] theorem ThreadState.pushFifo_maskHi (w : Word) : (th.pushFifo w).maskHi = th.maskHi := rfl
@[simp] theorem ThreadState.pushFifo_mopPending (w : Word) : (th.pushFifo w).mopPending = th.mopPending := rfl
@[simp] theorem ThreadState.pushFifo_mopBusy (w : Word) : (th.pushFifo w).mopBusy = th.mopBusy := rfl
@[simp] theorem ThreadState.pushFifo_postMop (w : Word) : (th.pushFifo w).postMop = th.postMop := rfl
@[simp] theorem ThreadState.pushFifo_replayBuf (w : Word) : (th.pushFifo w).replayBuf = th.replayBuf := rfl
@[simp] theorem ThreadState.pushFifo_recording (w : Word) : (th.pushFifo w).recording = th.recording := rfl
@[simp] theorem ThreadState.pushFifo_playPending (w : Word) : (th.pushFifo w).playPending = th.playPending := rfl
@[simp] theorem ThreadState.pushFifo_replayBusy (w : Word) : (th.pushFifo w).replayBusy = th.replayBusy := rfl
@[simp] theorem ThreadState.pushFifo_out (w : Word) : (th.pushFifo w).out = th.out := rfl
@[simp] theorem ThreadState.pushFifo_cfgWritten (w : Word) : (th.pushFifo w).cfgWritten = th.cfgWritten := rfl
@[simp] theorem ThreadState.pushFifo_slotWritten (w : Word) : (th.pushFifo w).slotWritten = th.slotWritten := rfl

@[simp] theorem ThreadState.pushPostMop_fifo (w : Word) : (th.pushPostMop w).fifo = th.fifo := rfl
@[simp] theorem ThreadState.pushPostMop_mopCfg (w : Word) : (th.pushPostMop w).mopCfg = th.mopCfg := rfl
@[simp] theorem ThreadState.pushPostMop_maskHi (w : Word) : (th.pushPostMop w).maskHi = th.maskHi := rfl
@[simp] theorem ThreadState.pushPostMop_mopPending (w : Word) : (th.pushPostMop w).mopPending = th.mopPending := rfl
@[simp] theorem ThreadState.pushPostMop_mopBusy (w : Word) : (th.pushPostMop w).mopBusy = th.mopBusy := rfl
@[simp] theorem ThreadState.pushPostMop_postMop (w : Word) : (th.pushPostMop w).postMop = th.postMop ++ [w] := rfl
@[simp] theorem ThreadState.pushPostMop_replayBuf (w : Word) : (th.pushPostMop w).replayBuf = th.replayBuf := rfl
@[simp] theorem ThreadState.pushPostMop_recording (w : Word) : (th.pushPostMop w).recording = th.recording := rfl
@[simp] theorem ThreadState.pushPostMop_playPending (w : Word) : (th.pushPostMop w).playPending = th.playPending := rfl
@[simp] theorem ThreadState.pushPostMop_replayBusy (w : Word) : (th.pushPostMop w).replayBusy = th.replayBusy := rfl
@[simp] theorem ThreadState.pushPostMop_out (w : Word) : (th.pushPostMop w).out = th.out := rfl
@[simp] theorem ThreadState.pushPostMop_cfgWritten (w : Word) : (th.pushPostMop w).cfgWritten = th.cfgWritten := rfl
@[simp] theorem ThreadState.pushPostMop_slotWritten (w : Word) : (th.pushPostMop w).slotWritten = th.slotWritten := rfl

@[simp] theorem ThreadState.setMopCfg_fifo (i : Fin 9) (v : Word) : (th.setMopCfg i v).fifo = th.fifo := rfl
@[simp] theorem ThreadState.setMopCfg_mopCfg (i : Fin 9) (v : Word) : (th.setMopCfg i v).mopCfg = th.mopCfg.set i v := rfl
@[simp] theorem ThreadState.setMopCfg_maskHi (i : Fin 9) (v : Word) : (th.setMopCfg i v).maskHi = th.maskHi := rfl
@[simp] theorem ThreadState.setMopCfg_mopPending (i : Fin 9) (v : Word) : (th.setMopCfg i v).mopPending = th.mopPending := rfl
@[simp] theorem ThreadState.setMopCfg_mopBusy (i : Fin 9) (v : Word) : (th.setMopCfg i v).mopBusy = th.mopBusy := rfl
@[simp] theorem ThreadState.setMopCfg_postMop (i : Fin 9) (v : Word) : (th.setMopCfg i v).postMop = th.postMop := rfl
@[simp] theorem ThreadState.setMopCfg_replayBuf (i : Fin 9) (v : Word) : (th.setMopCfg i v).replayBuf = th.replayBuf := rfl
@[simp] theorem ThreadState.setMopCfg_recording (i : Fin 9) (v : Word) : (th.setMopCfg i v).recording = th.recording := rfl
@[simp] theorem ThreadState.setMopCfg_playPending (i : Fin 9) (v : Word) : (th.setMopCfg i v).playPending = th.playPending := rfl
@[simp] theorem ThreadState.setMopCfg_replayBusy (i : Fin 9) (v : Word) : (th.setMopCfg i v).replayBusy = th.replayBusy := rfl
@[simp] theorem ThreadState.setMopCfg_out (i : Fin 9) (v : Word) : (th.setMopCfg i v).out = th.out := rfl
@[simp] theorem ThreadState.setMopCfg_cfgWritten (i : Fin 9) (v : Word) : (th.setMopCfg i v).cfgWritten = th.cfgWritten.set i true := rfl
@[simp] theorem ThreadState.setMopCfg_slotWritten (i : Fin 9) (v : Word) : (th.setMopCfg i v).slotWritten = th.slotWritten := rfl

@[simp] theorem ThreadState.startExpansion_fifo (ws : List Word) : (th.startExpansion ws).fifo = th.fifo := rfl
@[simp] theorem ThreadState.startExpansion_mopCfg (ws : List Word) : (th.startExpansion ws).mopCfg = th.mopCfg := rfl
@[simp] theorem ThreadState.startExpansion_maskHi (ws : List Word) : (th.startExpansion ws).maskHi = th.maskHi := rfl
@[simp] theorem ThreadState.startExpansion_mopPending (ws : List Word) : (th.startExpansion ws).mopPending = ws := rfl
@[simp] theorem ThreadState.startExpansion_mopBusy (ws : List Word) : (th.startExpansion ws).mopBusy = !ws.isEmpty := rfl
@[simp] theorem ThreadState.startExpansion_postMop (ws : List Word) : (th.startExpansion ws).postMop = th.postMop := rfl
@[simp] theorem ThreadState.startExpansion_replayBuf (ws : List Word) : (th.startExpansion ws).replayBuf = th.replayBuf := rfl
@[simp] theorem ThreadState.startExpansion_recording (ws : List Word) : (th.startExpansion ws).recording = th.recording := rfl
@[simp] theorem ThreadState.startExpansion_playPending (ws : List Word) : (th.startExpansion ws).playPending = th.playPending := rfl
@[simp] theorem ThreadState.startExpansion_replayBusy (ws : List Word) : (th.startExpansion ws).replayBusy = th.replayBusy := rfl
@[simp] theorem ThreadState.startExpansion_out (ws : List Word) : (th.startExpansion ws).out = th.out := rfl
@[simp] theorem ThreadState.startExpansion_cfgWritten (ws : List Word) : (th.startExpansion ws).cfgWritten = th.cfgWritten := rfl
@[simp] theorem ThreadState.startExpansion_slotWritten (ws : List Word) : (th.startExpansion ws).slotWritten = th.slotWritten := rfl

@[simp] theorem ThreadState.startRecording_fifo (b : Fin 32) (n : Nat) (e : Bool) : (th.startRecording b n e).fifo = th.fifo := rfl
@[simp] theorem ThreadState.startRecording_mopCfg (b : Fin 32) (n : Nat) (e : Bool) : (th.startRecording b n e).mopCfg = th.mopCfg := rfl
@[simp] theorem ThreadState.startRecording_maskHi (b : Fin 32) (n : Nat) (e : Bool) : (th.startRecording b n e).maskHi = th.maskHi := rfl
@[simp] theorem ThreadState.startRecording_mopPending (b : Fin 32) (n : Nat) (e : Bool) : (th.startRecording b n e).mopPending = th.mopPending := rfl
@[simp] theorem ThreadState.startRecording_mopBusy (b : Fin 32) (n : Nat) (e : Bool) : (th.startRecording b n e).mopBusy = th.mopBusy := rfl
@[simp] theorem ThreadState.startRecording_postMop (b : Fin 32) (n : Nat) (e : Bool) : (th.startRecording b n e).postMop = th.postMop := rfl
@[simp] theorem ThreadState.startRecording_replayBuf (b : Fin 32) (n : Nat) (e : Bool) : (th.startRecording b n e).replayBuf = th.replayBuf := rfl
@[simp] theorem ThreadState.startRecording_recording (b : Fin 32) (n : Nat) (e : Bool) : (th.startRecording b n e).recording = some { base := b, i := 0, n := n, exec := e } := rfl
@[simp] theorem ThreadState.startRecording_playPending (b : Fin 32) (n : Nat) (e : Bool) : (th.startRecording b n e).playPending = th.playPending := rfl
@[simp] theorem ThreadState.startRecording_replayBusy (b : Fin 32) (n : Nat) (e : Bool) : (th.startRecording b n e).replayBusy = th.replayBusy := rfl
@[simp] theorem ThreadState.startRecording_out (b : Fin 32) (n : Nat) (e : Bool) : (th.startRecording b n e).out = th.out := rfl
@[simp] theorem ThreadState.startRecording_cfgWritten (b : Fin 32) (n : Nat) (e : Bool) : (th.startRecording b n e).cfgWritten = th.cfgWritten := rfl
@[simp] theorem ThreadState.startRecording_slotWritten (b : Fin 32) (n : Nat) (e : Bool) : (th.startRecording b n e).slotWritten = th.slotWritten := rfl

@[simp] theorem ThreadState.capture_fifo (r : Recording) (w : Word) : (th.capture r w).fifo = th.fifo := rfl
@[simp] theorem ThreadState.capture_mopCfg (r : Recording) (w : Word) : (th.capture r w).mopCfg = th.mopCfg := rfl
@[simp] theorem ThreadState.capture_maskHi (r : Recording) (w : Word) : (th.capture r w).maskHi = th.maskHi := rfl
@[simp] theorem ThreadState.capture_mopPending (r : Recording) (w : Word) : (th.capture r w).mopPending = th.mopPending := rfl
@[simp] theorem ThreadState.capture_mopBusy (r : Recording) (w : Word) : (th.capture r w).mopBusy = th.mopBusy := rfl
@[simp] theorem ThreadState.capture_postMop (r : Recording) (w : Word) : (th.capture r w).postMop = th.postMop := rfl
@[simp] theorem ThreadState.capture_replayBuf (r : Recording) (w : Word) : (th.capture r w).replayBuf = th.replayBuf.set (replaySlot r.base r.i) w := rfl
@[simp] theorem ThreadState.capture_recording (r : Recording) (w : Word) : (th.capture r w).recording = r.advance := rfl
@[simp] theorem ThreadState.capture_playPending (r : Recording) (w : Word) : (th.capture r w).playPending = th.playPending := rfl
@[simp] theorem ThreadState.capture_replayBusy (r : Recording) (w : Word) : (th.capture r w).replayBusy = th.replayBusy := rfl
@[simp] theorem ThreadState.capture_out (r : Recording) (w : Word) : (th.capture r w).out = th.out := rfl
@[simp] theorem ThreadState.capture_cfgWritten (r : Recording) (w : Word) : (th.capture r w).cfgWritten = th.cfgWritten := rfl
@[simp] theorem ThreadState.capture_slotWritten (r : Recording) (w : Word) : (th.capture r w).slotWritten = th.slotWritten.set (replaySlot r.base r.i) true := rfl

@[simp] theorem ThreadState.startPlayback_fifo (b : Fin 32) (n : Nat) : (th.startPlayback b n).fifo = th.fifo := rfl
@[simp] theorem ThreadState.startPlayback_mopCfg (b : Fin 32) (n : Nat) : (th.startPlayback b n).mopCfg = th.mopCfg := rfl
@[simp] theorem ThreadState.startPlayback_maskHi (b : Fin 32) (n : Nat) : (th.startPlayback b n).maskHi = th.maskHi := rfl
@[simp] theorem ThreadState.startPlayback_mopPending (b : Fin 32) (n : Nat) : (th.startPlayback b n).mopPending = th.mopPending := rfl
@[simp] theorem ThreadState.startPlayback_mopBusy (b : Fin 32) (n : Nat) : (th.startPlayback b n).mopBusy = th.mopBusy := rfl
@[simp] theorem ThreadState.startPlayback_postMop (b : Fin 32) (n : Nat) : (th.startPlayback b n).postMop = th.postMop := rfl
@[simp] theorem ThreadState.startPlayback_replayBuf (b : Fin 32) (n : Nat) : (th.startPlayback b n).replayBuf = th.replayBuf := rfl
@[simp] theorem ThreadState.startPlayback_recording (b : Fin 32) (n : Nat) : (th.startPlayback b n).recording = th.recording := rfl
@[simp] theorem ThreadState.startPlayback_playPending (b : Fin 32) (n : Nat) : (th.startPlayback b n).playPending = playbackWords th.replayBuf b n := rfl
@[simp] theorem ThreadState.startPlayback_replayBusy (b : Fin 32) (n : Nat) : (th.startPlayback b n).replayBusy = !(playbackWords th.replayBuf b n).isEmpty := rfl
@[simp] theorem ThreadState.startPlayback_out (b : Fin 32) (n : Nat) : (th.startPlayback b n).out = th.out := rfl
@[simp] theorem ThreadState.startPlayback_cfgWritten (b : Fin 32) (n : Nat) : (th.startPlayback b n).cfgWritten = th.cfgWritten := rfl
@[simp] theorem ThreadState.startPlayback_slotWritten (b : Fin 32) (n : Nat) : (th.startPlayback b n).slotWritten = th.slotWritten := rfl

@[simp] theorem ThreadState.popPlayback_fifo (rest : List Word) : (th.popPlayback rest).fifo = th.fifo := rfl
@[simp] theorem ThreadState.popPlayback_mopCfg (rest : List Word) : (th.popPlayback rest).mopCfg = th.mopCfg := rfl
@[simp] theorem ThreadState.popPlayback_maskHi (rest : List Word) : (th.popPlayback rest).maskHi = th.maskHi := rfl
@[simp] theorem ThreadState.popPlayback_mopPending (rest : List Word) : (th.popPlayback rest).mopPending = th.mopPending := rfl
@[simp] theorem ThreadState.popPlayback_mopBusy (rest : List Word) : (th.popPlayback rest).mopBusy = th.mopBusy := rfl
@[simp] theorem ThreadState.popPlayback_postMop (rest : List Word) : (th.popPlayback rest).postMop = th.postMop := rfl
@[simp] theorem ThreadState.popPlayback_replayBuf (rest : List Word) : (th.popPlayback rest).replayBuf = th.replayBuf := rfl
@[simp] theorem ThreadState.popPlayback_recording (rest : List Word) : (th.popPlayback rest).recording = th.recording := rfl
@[simp] theorem ThreadState.popPlayback_playPending (rest : List Word) : (th.popPlayback rest).playPending = rest := rfl
@[simp] theorem ThreadState.popPlayback_replayBusy (rest : List Word) : (th.popPlayback rest).replayBusy = !rest.isEmpty := rfl
@[simp] theorem ThreadState.popPlayback_out (rest : List Word) : (th.popPlayback rest).out = th.out := rfl
@[simp] theorem ThreadState.popPlayback_cfgWritten (rest : List Word) : (th.popPlayback rest).cfgWritten = th.cfgWritten := rfl
@[simp] theorem ThreadState.popPlayback_slotWritten (rest : List Word) : (th.popPlayback rest).slotWritten = th.slotWritten := rfl

@[simp] theorem ThreadState.appendOut_fifo (w : Word) : (th.appendOut w).fifo = th.fifo := rfl
@[simp] theorem ThreadState.appendOut_mopCfg (w : Word) : (th.appendOut w).mopCfg = th.mopCfg := rfl
@[simp] theorem ThreadState.appendOut_maskHi (w : Word) : (th.appendOut w).maskHi = th.maskHi := rfl
@[simp] theorem ThreadState.appendOut_mopPending (w : Word) : (th.appendOut w).mopPending = th.mopPending := rfl
@[simp] theorem ThreadState.appendOut_mopBusy (w : Word) : (th.appendOut w).mopBusy = th.mopBusy := rfl
@[simp] theorem ThreadState.appendOut_postMop (w : Word) : (th.appendOut w).postMop = th.postMop := rfl
@[simp] theorem ThreadState.appendOut_replayBuf (w : Word) : (th.appendOut w).replayBuf = th.replayBuf := rfl
@[simp] theorem ThreadState.appendOut_recording (w : Word) : (th.appendOut w).recording = th.recording := rfl
@[simp] theorem ThreadState.appendOut_playPending (w : Word) : (th.appendOut w).playPending = th.playPending := rfl
@[simp] theorem ThreadState.appendOut_replayBusy (w : Word) : (th.appendOut w).replayBusy = th.replayBusy := rfl
@[simp] theorem ThreadState.appendOut_out (w : Word) : (th.appendOut w).out = th.out ++ [w] := rfl
@[simp] theorem ThreadState.appendOut_cfgWritten (w : Word) : (th.appendOut w).cfgWritten = th.cfgWritten := rfl
@[simp] theorem ThreadState.appendOut_slotWritten (w : Word) : (th.appendOut w).slotWritten = th.slotWritten := rfl

end

/-! The MOP Expander's emission, which depends on what is pending. -/

@[simp] theorem ThreadState.emitMop_nil (th : ThreadState) (h : th.mopPending = []) : th.emitMop = th := by
  simp [ThreadState.emitMop, h]

theorem ThreadState.emitMop_cons (th : ThreadState) (w : Word) (rest : List Word) (h : th.mopPending = w :: rest) :
    th.emitMop = { th with mopPending := rest, mopBusy := !rest.isEmpty, postMop := th.postMop ++ [w] } := by
  simp [ThreadState.emitMop, h]

end Sys2Proof.Machine
end

