-- ==== Sys2Proof/Laws/Ops.lean ====
section
/-! SUPPORT. One lemma per shared operation that says once everything it can do: what it answers, and what holds when
it answers a next state. -/

namespace Sys2Proof.Machine

theorem deliver_next {t : ThreadId} {w : Word} {s s' : State} :
    deliver t w s = .next s' ↔ isExpanderOpcode w = false ∧ s' = s.setThread t ((s.thread t).appendOut w) := by
  unfold deliver
  cases isExpanderOpcode w <;> simp [eq_comm]

theorem deliver_refused {t : ThreadId} {w : Word} {s : State} (h : isExpanderOpcode w = true) :
    deliver t w s = .refused .expanderOpcodeDownstream := by simp [deliver, h]

theorem captureWord_next {t : ThreadId} {r : Recording} {w : Word} {s s' : State} :
    captureWord t r w s = .next s' ↔
      (r.exec = false ∧ s' = s.setThread t ((s.thread t).capture r w)) ∨
      (r.exec = true ∧ isExpanderOpcode w = false ∧
        s' = s.setThread t (((s.thread t).capture r w).appendOut w)) := by
  unfold captureWord
  cases r.exec
  · simp
    exact ⟨Eq.symm, Eq.symm⟩
  · simp [deliver_next]

theorem captureOr_none {t : ThreadId} {w : Word} {f : State → Result} {s : State}
    (h : (s.thread t).recording = none) : captureOr t w f s = f s := by simp [captureOr, h]

theorem captureOr_some {t : ThreadId} {w : Word} {f : State → Result} {s : State} {r : Recording}
    (h : (s.thread t).recording = some r) : captureOr t w f s = captureWord t r w s := by simp [captureOr, h]

theorem passThrough_mop {w : Word} {s : State} {t : ThreadId} (h : s.site = ⟨t, .mopExpander⟩) :
    passThrough w s = .next (s.setThread t ((s.thread t).pushPostMop w)) := by simp [passThrough, h]

theorem passThrough_replay {w : Word} {s : State} {t : ThreadId} (h : s.site = ⟨t, .replayExpander⟩) :
    passThrough w s = captureOr t w (deliver t w) s := by simp [passThrough, h]

theorem writeMopCfg_next {t : ThreadId} {i : Fin 9} {v : Word} {s s' : State} :
    writeMopCfg t i v s = .next s' ↔
      (s.thread t).mopBusy = false ∧ s' = s.setThread t ((s.thread t).setMopCfg i v) := by
  unfold writeMopCfg
  cases (s.thread t).mopBusy <;> simp [eq_comm]

theorem pushWord_ok {t : ThreadId} {w : Word} {s s' : State} :
    pushWord t w s = .ok (.next s') ↔
      (s.thread t).fifo.length < Config.fifoDepth ∧ s' = s.setThread t ((s.thread t).pushFifo w) := by
  unfold pushWord
  split <;> simp_all [eq_comm]

theorem performMopSync_ok {t : ThreadId} {s s' : State} :
    performMopSync t s = .ok (.next s') ↔ mopIdle (s.thread t) = true ∧ s' = s := by
  unfold performMopSync
  cases mopIdle (s.thread t) <;> simp [eq_comm]

theorem replayEmit_next {t : ThreadId} {w : Word} {rest : List Word} {s s' : State}
    (h : (s.thread t).playPending = w :: rest) :
    replayEmit t s = .next s' ↔ isExpanderOpcode w = false ∧
      s' = s.setThread t (((s.thread t).popPlayback rest).appendOut w) := by
  simp [replayEmit, h, deliver_next]

@[simp] theorem returnRead_thread (c : CoreId) (v : Word) (s : State) (t : ThreadId) :
    (returnRead c v s).thread t = s.thread t := by simp [returnRead]

theorem playbackWords_length (buf : ReplayBuf) (base : Fin 32) (n : Nat) :
    (playbackWords buf base n).length = n := by simp [playbackWords]

theorem replayCount_pos (len : BitVec 10) : 0 < replayCount len := by
  unfold replayCount; split <;> omega

theorem replayCount_le (len : BitVec 10) : replayCount len ≤ 64 := by
  unfold replayCount; split <;> omega

/-- The nine register addresses name their registers (R52). -/
theorem mopCfgIndex_registerAddr (i : Fin 9) : mopCfgIndex (0xFFB80000 + 4 * BitVec.ofNat 32 i.val) = i := by
  revert i; decide

/-- A word store in the window is at the address of the register it names (R52). -/
theorem mopCfgWindow_addr {addr : Word} (hw : inMopCfgWindow addr = true) (hs : wordShape addr 4 = true) :
    addr = 0xFFB80000 + 4 * BitVec.ofNat 32 (mopCfgIndex addr).val := by
  simp only [inMopCfgWindow, wordShape, Config.mopCfgBase, Config.mopCfgCount, decide_eq_true_eq, true_and] at hw hs
  have hw := of_decide_eq_true hw
  have hlo : 0xFFB80000 ≤ addr.toNat := hw.1
  have hhi : addr.toNat < 0xFFB80000 + 36 := hw.2
  obtain ⟨i, hi⟩ : ∃ i : Fin 9, addr = 0xFFB80000 + 4 * BitVec.ofNat 32 i.val := by
    obtain ⟨k, hk⟩ : ∃ k, k = (addr.toNat - 0xFFB80000) / 4 := ⟨_, rfl⟩
    refine ⟨⟨k, by omega⟩, BitVec.eq_of_toNat_eq ?_⟩
    have : addr.toNat = 0xFFB80000 + 4 * k := by omega
    rw [this]
    simp only [BitVec.toNat_add, BitVec.toNat_mul, BitVec.toNat_ofNat]
    rw [show (0xFFB80000 : Word).toNat = 0xFFB80000 from rfl, show (4 : Word).toNat = 4 from rfl]
    omega
  rw [hi, mopCfgIndex_registerAddr]

theorem wordShape_width {addr : Word} {width : Nat} (h : wordShape addr width = true) : width = 4 := by
  simp only [wordShape, decide_eq_true_eq] at h
  exact h.1

/-- Everything a core access can do to the machine when it answers a next state: nothing to any thread, or one word
store to a register of a thread whose MOP Expander is not busy, reached through the window by its own TRISC or through
BRISC's own address. -/
theorem performAccess_next {c : CoreId} {a : CoreAccess} {s s' : State} (h : performAccess c a s = .ok (.next s')) :
    (∀ t, s'.thread t = s.thread t) ∨
    ∃ t i v addr, a = .store addr 4 v ∧
      (c = .trisc t ∧ inMopCfgWindow addr = true ∧ addr = 0xFFB80000 + 4 * BitVec.ofNat 32 i.val ∨
        c = .brisc ∧ inMopCfgWindow addr = false ∧ briscMopCfgTarget addr = some (t, i)) ∧
      (s.thread t).mopBusy = false ∧ s' = s.setThread t ((s.thread t).setMopCfg i v) := by
  cases a with
  | store addr width value =>
    simp only [performAccess, performStore] at h
    split at h
    · rename_i hw
      simp only [storeMopCfgWindow] at h
      split at h
      · rename_i hs
        cases wordShape_width hs
        cases c with
        | trisc t =>
          obtain ⟨hb, rfl⟩ := writeMopCfg_next.1 (Except.ok.inj h)
          exact .inr ⟨t, _, _, addr, rfl, .inl ⟨rfl, hw, mopCfgWindow_addr hw hs⟩, hb, rfl⟩
        | brisc => simp at h
      · simp at h
    · rename_i hw
      cases c with
      | trisc t =>
        simp only [storeTriscOutside] at h
        split at h
        · split at h
          · obtain ⟨-, rfl⟩ := performMopSync_ok.1 h
            exact .inl fun _ => rfl
          · simp at h
        · simp at h
      | brisc =>
        simp only [storeBriscOutside] at h
        split at h
        · rename_i t i ht
          split at h
          · rename_i hs
            cases wordShape_width hs
            obtain ⟨hb, rfl⟩ := writeMopCfg_next.1 (Except.ok.inj h)
            exact .inr ⟨t, i, _, addr, rfl, .inr ⟨rfl, by simpa using hw, ht⟩, hb, rfl⟩
          · simp at h
        · simp at h
  | load addr width => simp only [performAccess, performLoad] at h; split at h <;> simp at h
  | csrRead csr =>
    refine .inl fun t => ?_
    simp only [performAccess, performCsrRead] at h
    split at h
    · cases c with
      | trisc t' => simp at h; subst h; simp
      | brisc => simp at h
    · split at h
      · simp at h; subst h; simp
      · split at h <;> simp at h
  | csrWrite csr value =>
    refine .inl fun t => ?_
    simp only [performAccess, performCsrWrite] at h
    split at h
    · simp at h; subst h; simp
    · split at h
      · simp at h
      · split at h <;> simp at h
  | ttSync => simp [performAccess] at h

end Sys2Proof.Machine
end

