-- ==== Sys2Proof/Laws/PerInstr.lean ====
section
/-! SUPPORT. What holds of every instruction as syntax, one lemma per constructor. -/

namespace Sys2Proof.Laws

/-- The opcode byte of an instruction's word is its row's, and a well-formed OTHER has no other row's
(spec/30_encoding.md R81 to R84, R91). -/
def OpcodeByte.Statement (i : Instr) : Prop :=
  opcodeOf (encode i) = opcodeByte i ∧
    (i.WellFormed → ((∃ o p, i = .other o p) ↔ opcodeOf (encode i) ∉ namedOpcodes))

theorem OpcodeByte.mop (template : Template) (count1 : BitVec 7) (maskLo : BitVec 16) :
    OpcodeByte.Statement (.mop template count1 maskLo) :=
  ⟨opcodeOf_encode _, fun _ => by simp [opcodeOf_encode, opcodeByte, namedOpcodes]⟩

theorem OpcodeByte.nop (payload : BitVec 24) : OpcodeByte.Statement (.nop payload) :=
  ⟨opcodeOf_encode _, fun _ => by simp [opcodeOf_encode, opcodeByte, namedOpcodes]⟩

theorem OpcodeByte.mopCfg (reserved : BitVec 8) (maskHi : BitVec 16) :
    OpcodeByte.Statement (.mopCfg reserved maskHi) :=
  ⟨opcodeOf_encode _, fun _ => by simp [opcodeOf_encode, opcodeByte, namedOpcodes]⟩

theorem OpcodeByte.replay (startIdx len : BitVec 10) (unlisted : BitVec 2) (execWhileLoading loadMode : Bool) :
    OpcodeByte.Statement (.replay startIdx len unlisted execWhileLoading loadMode) :=
  ⟨opcodeOf_encode _, fun _ => by simp [opcodeOf_encode, opcodeByte, namedOpcodes]⟩

theorem OpcodeByte.resourcedecl (payload : BitVec 24) : OpcodeByte.Statement (.resourcedecl payload) :=
  ⟨opcodeOf_encode _, fun _ => by simp [opcodeOf_encode, opcodeByte, namedOpcodes]⟩

theorem OpcodeByte.dmanop (payload : BitVec 24) : OpcodeByte.Statement (.dmanop payload) :=
  ⟨opcodeOf_encode _, fun _ => by simp [opcodeOf_encode, opcodeByte, namedOpcodes]⟩

theorem OpcodeByte.sfpnop (payload : BitVec 24) : OpcodeByte.Statement (.sfpnop payload) :=
  ⟨opcodeOf_encode _, fun _ => by simp [opcodeOf_encode, opcodeByte, namedOpcodes]⟩

theorem OpcodeByte.other (opcode : BitVec 8) (payload : BitVec 24) : OpcodeByte.Statement (.other opcode payload) :=
  by
  refine ⟨opcodeOf_encode _, fun h => ?_⟩
  have hn : opcode ∉ namedOpcodes := by simpa [Instr.WellFormed, Instr.wf] using h
  simpa [opcodeOf_encode, opcodeByte] using hn

end Sys2Proof.Laws
end

