-- ==== Sys2Proof/Laws/Steps.lean ====
section
/-! SUPPORT. Inversion of the steps: what a thread can come to in one turn of a core, of its MOP Expander, of its
Replay Expander, or of another thread's units. -/

namespace Sys2Proof.Machine

/-- A core's turn does one of four things to a thread, and the last three are its next action's own. -/
theorem coreStep_thread {c : CoreId} {s s' : State} (h : coreStep c s = .next s') (t : ThreadId) :
    s'.thread t = s.thread t ∨
    (∃ w, c = .trisc t ∧ (s.thread t).fifo.length < Config.fifoDepth ∧ s'.thread t = (s.thread t).pushFifo w) ∨
    (∃ w rest, c = .brisc ∧ s.brisc.program = .pushPostMop t w :: rest ∧ s'.thread t = (s.thread t).pushPostMop w) ∨
    (∃ i v, Safety.nextStoresMopCfg c t i v s ∧ (s.thread t).mopBusy = false ∧
      s'.thread t = (s.thread t).setMopCfg i v) := by
  have push : ∀ (t' : ThreadId) (w : Word) (s1 : State), c = .trisc t' → (∀ t, s1.thread t = s.thread t) →
      pushWord t' w s1 = .ok (.next s') →
      s'.thread t = s.thread t ∨ (∃ w, c = .trisc t ∧ (s.thread t).fifo.length < Config.fifoDepth ∧
        s'.thread t = (s.thread t).pushFifo w) := by
    intro t' w s1 hc hs1 hp
    obtain ⟨hl, rfl⟩ := pushWord_ok.1 hp
    by_cases ht : t = t'
    · subst ht
      exact .inr ⟨w, hc, by rw [← hs1 t]; exact hl, by simp [hs1 t]⟩
    · exact .inl (by simp [ht, hs1 t])
  cases c with
  | trisc t' =>
    simp only [coreStep, attempt] at h
    cases hp : (s.trisc t').program with
    | nil => simp only [hp] at h; cases h; exact .inl rfl
    | cons a rest =>
      simp only [hp] at h
      generalize hs1 : s.setTriscProgram t' rest = s1 at h
      have hth : ∀ t, s1.thread t = s.thread t := fun t => by rw [← hs1]; simp
      cases hr : performTrisc t' a s1 with
      | error e => simp only [hr] at h; cases h; exact .inl rfl
      | ok r =>
        simp only [hr] at h; subst h
        cases a with
        | push w =>
          rcases push t' w s1 rfl hth hr with h | h
          · exact .inl h
          · exact .inr (.inl h)
        | ttinsn e =>
          rcases push t' _ s1 rfl hth hr with h | h
          · exact .inl h
          · exact .inr (.inl h)
        | mopSync v => obtain ⟨-, rfl⟩ := performMopSync_ok.1 hr; exact .inl (hth t)
        | access a =>
          rcases performAccess_next hr with hsame | ⟨u, i, v, addr, rfl, hc, hb, rfl⟩
          · exact .inl ((hsame t).trans (hth t))
          · obtain ⟨hu, -, rfl⟩ | ⟨hu, -⟩ := hc
            · cases hu
              by_cases ht : t = t'
              · subst ht
                exact .inr (.inr (.inr ⟨i, v, ⟨rfl, rest, hp⟩, by rw [← hth t]; exact hb, by simp [hth t]⟩))
              · exact .inl (by simp [ht, hth t])
            · cases hu
  | brisc =>
    simp only [coreStep, attempt] at h
    cases hp : s.brisc.program with
    | nil => simp only [hp] at h; cases h; exact .inl rfl
    | cons a rest =>
      simp only [hp] at h
      generalize hs1 : s.setBriscProgram rest = s1 at h
      have hth : ∀ t, s1.thread t = s.thread t := fun t => by rw [← hs1]; simp
      cases hr : performBrisc a s1 with
      | error e => simp only [hr] at h; cases h; exact .inl rfl
      | ok r =>
        simp only [hr] at h; subst h
        cases a with
        | pushPostMop t' w =>
          simp only [performBrisc, Except.ok.injEq, Host.Outcome.next.injEq] at hr
          subst hr
          by_cases ht : t = t'
          · subst ht; exact .inr (.inr (.inl ⟨w, rest, rfl, rfl, by simp [hth t]⟩))
          · exact .inl (by simp [ht, hth t])
        | writeMopCfg t' i v =>
          obtain ⟨hb, rfl⟩ := writeMopCfg_next.1 (Except.ok.inj hr)
          by_cases ht : t = t'
          · subst ht
            exact .inr (.inr (.inr ⟨i, v, ⟨rest, .inl hp⟩, by rw [← hth t]; exact hb, by simp [hth t]⟩))
          · exact .inl (by simp [ht, hth t])
        | access a =>
          rcases performAccess_next hr with hsame | ⟨u, i, v, addr, rfl, hc, hb, rfl⟩
          · exact .inl ((hsame t).trans (hth t))
          · obtain ⟨hu, -⟩ | ⟨-, -, hx⟩ := hc
            · cases hu
            · by_cases ht : t = u
              · subst ht
                exact .inr (.inr (.inr ⟨i, v, ⟨rest, .inr ⟨addr, hx, hp⟩⟩, by rw [← hth t]; exact hb, by simp [hth t]⟩))
              · exact .inl (by simp [ht, hth t])

/-- At the MOP Expander every instruction runs to a next state, and does one of three things to its thread. -/
theorem exec_mopExpander (i : Instr) {s : State} {t : ThreadId} (hs : s.site = ⟨t, .mopExpander⟩) :
    ∃ th', exec i s = .next (s.setThread t th') ∧
      ((∃ template c m, i = .mop template c m ∧
          th' = (s.thread t).startExpansion (expandMop template c m (s.thread t).maskHi (s.thread t).mopCfg)) ∨
        (∃ r h, i = .mopCfg r h ∧ th' = (s.thread t).setMaskHi h) ∨
        ((∀ template c m, i ≠ .mop template c m) ∧ (∀ r h, i ≠ .mopCfg r h) ∧
          th' = (s.thread t).pushPostMop (encode i))) := by
  cases i <;>
    simp [exec, execMop, execMopCfg, execReplay, execNop, execResourcedecl, execDmanop, execSfpnop, execOther,
      passThrough, hs]

/-- A turn of MOP Expander t leaves every other thread as it is and does one of four things to thread t. -/
theorem mopStep_next (t : ThreadId) (s : State) :
    mopStep t s = .next s ∧ (s.thread t).mopPending = [] ∧ (s.thread t).fifo = [] ∨
    mopStep t s = .next (s.setThread t (s.thread t).emitMop) ∧ (s.thread t).mopPending ≠ [] ∨
    ∃ w rest th', (s.thread t).mopPending = [] ∧ (s.thread t).fifo = w :: rest ∧
      mopStep t s = .next ((s.setThread t th').setSite ⟨t, .mopExpander⟩) ∧
      ((∃ template c m, decode w = .mop template c m ∧
          th' = ((s.thread t).setFifo rest).startExpansion
            (expandMop template c m (s.thread t).maskHi (s.thread t).mopCfg)) ∨
        (∃ r h, decode w = .mopCfg r h ∧ th' = ((s.thread t).setFifo rest).setMaskHi h) ∨
        ((∀ template c m, decode w ≠ .mop template c m) ∧ (∀ r h, decode w ≠ .mopCfg r h) ∧
          th' = ((s.thread t).setFifo rest).pushPostMop (encode (decode w)))) := by
  cases hp : (s.thread t).mopPending with
  | cons w rest => exact .inr (.inl ⟨by simp [mopStep, hp, mopEmit], by simp⟩)
  | nil =>
    cases hf : (s.thread t).fifo with
    | nil => exact .inl ⟨by simp [mopStep, hp, hf], rfl, rfl⟩
    | cons w rest =>
      obtain ⟨th', he, hc⟩ := exec_mopExpander (decode w) (t := t)
        (s := (s.setThread t ((s.thread t).setFifo rest)).setSite ⟨t, .mopExpander⟩) rfl
      refine .inr (.inr ⟨w, rest, th', rfl, rfl, ?_, ?_⟩)
      · simp only [mopStep, hp, hf, mopTake, he, State.setSite_setThread, State.setThread_setThread]
      · simpa using hc

/-- At the Replay Expander an instruction that answers a next state does one of five things to its thread. -/
theorem exec_replayExpander {i : Instr} {s s' : State} {t : ThreadId} (hs : s.site = ⟨t, .replayExpander⟩)
    (h : exec i s = .next s') :
    ∃ th', s' = s.setThread t th' ∧
      ((∃ r, (s.thread t).recording = some r ∧ r.exec = false ∧ th' = (s.thread t).capture r (encode i)) ∨
        (∃ r, (s.thread t).recording = some r ∧ r.exec = true ∧ isExpanderOpcode (encode i) = false ∧
          th' = ((s.thread t).capture r (encode i)).appendOut (encode i)) ∨
        ((s.thread t).recording = none ∧ isExpanderOpcode (encode i) = false ∧
          (∀ a b c d e, i ≠ .replay a b c d e) ∧ th' = (s.thread t).appendOut (encode i)) ∨
        (∃ a b c d, (s.thread t).recording = none ∧ i = .replay a b c d true ∧
          th' = (s.thread t).startRecording (replayIndex a) (replayCount b) d) ∨
        (∃ a b c d, (s.thread t).recording = none ∧ i = .replay a b c d false ∧
          th' = (s.thread t).startPlayback (replayIndex a) (replayCount b))) := by
  have pass : ∀ w, (∀ a b c d e, i ≠ .replay a b c d e) → w = encode i →
      captureOr t w (deliver t w) s = .next s' →
      ∃ th', s' = s.setThread t th' ∧
        ((∃ r, (s.thread t).recording = some r ∧ r.exec = false ∧ th' = (s.thread t).capture r (encode i)) ∨
        (∃ r, (s.thread t).recording = some r ∧ r.exec = true ∧ isExpanderOpcode (encode i) = false ∧
          th' = ((s.thread t).capture r (encode i)).appendOut (encode i)) ∨
        ((s.thread t).recording = none ∧ isExpanderOpcode (encode i) = false ∧
          (∀ a b c d e, i ≠ .replay a b c d e) ∧ th' = (s.thread t).appendOut (encode i)) ∨
        (∃ a b c d, (s.thread t).recording = none ∧ i = .replay a b c d true ∧
          th' = (s.thread t).startRecording (replayIndex a) (replayCount b) d) ∨
        (∃ a b c d, (s.thread t).recording = none ∧ i = .replay a b c d false ∧
          th' = (s.thread t).startPlayback (replayIndex a) (replayCount b))) := by
    intro w hni hw h
    subst hw
    cases hr : (s.thread t).recording with
    | none =>
      rw [captureOr_none hr] at h
      obtain ⟨ho, rfl⟩ := deliver_next.1 h
      exact ⟨_, rfl, .inr (.inr (.inl ⟨rfl, ho, hni, rfl⟩))⟩
    | some r =>
      rw [captureOr_some hr] at h
      rcases captureWord_next.1 h with ⟨he, rfl⟩ | ⟨he, ho, rfl⟩
      · exact ⟨_, rfl, .inl ⟨r, rfl, he, rfl⟩⟩
      · exact ⟨_, rfl, .inr (.inl ⟨r, rfl, he, ho, rfl⟩)⟩
  cases i with
  | replay a b c d e =>
    simp only [exec, execReplay, hs] at h
    cases hr : (s.thread t).recording with
    | none =>
      rw [captureOr_none hr] at h
      cases e
      · simp only [interpretReplay, Bool.false_eq_true, if_false, Host.Outcome.next.injEq] at h
        exact ⟨_, h.symm, .inr (.inr (.inr (.inr ⟨a, b, c, d, rfl, rfl, rfl⟩)))⟩
      · simp only [interpretReplay, if_true, Host.Outcome.next.injEq] at h
        exact ⟨_, h.symm, .inr (.inr (.inr (.inl ⟨a, b, c, d, rfl, rfl, rfl⟩)))⟩
    | some r =>
      rw [captureOr_some hr] at h
      rcases captureWord_next.1 h with ⟨he, rfl⟩ | ⟨he, ho, rfl⟩
      · exact ⟨_, rfl, .inl ⟨r, rfl, he, rfl⟩⟩
      · exact ⟨_, rfl, .inr (.inl ⟨r, rfl, he, ho, rfl⟩)⟩
  | mop a b c =>
    simp only [exec, execMop, passThrough, hs] at h
    exact pass _ (by simp) rfl h
  | mopCfg a b =>
    simp only [exec, execMopCfg, passThrough, hs] at h
    exact pass _ (by simp) rfl h
  | nop a =>
    simp only [exec, execNop, passThrough, hs] at h
    exact pass _ (by simp) rfl h
  | resourcedecl a =>
    simp only [exec, execResourcedecl, passThrough, hs] at h
    exact pass _ (by simp) rfl h
  | dmanop a =>
    simp only [exec, execDmanop, passThrough, hs] at h
    exact pass _ (by simp) rfl h
  | sfpnop a =>
    simp only [exec, execSfpnop, passThrough, hs] at h
    exact pass _ (by simp) rfl h
  | other a b =>
    simp only [exec, execOther, passThrough, hs] at h
    exact pass _ (by simp) rfl h

/-- A turn of Replay Expander t that answers a next state: nothing, one emitted word, or one word taken. -/
theorem replayStep_next {t : ThreadId} {s s' : State} (h : replayStep t s = .next s') :
    (s' = s ∧ (s.thread t).playPending = [] ∧ (s.thread t).postMop = []) ∨
    (∃ w rest, (s.thread t).playPending = w :: rest ∧ isExpanderOpcode w = false ∧
      s' = s.setThread t (((s.thread t).popPlayback rest).appendOut w)) ∨
    ∃ w rest, (s.thread t).playPending = [] ∧ (s.thread t).postMop = w :: rest ∧
      exec (decode w) ((s.setThread t ((s.thread t).setPostMop rest)).setSite ⟨t, .replayExpander⟩) = .next s' := by
  cases hp : (s.thread t).playPending with
  | cons w rest =>
    simp only [replayStep, hp] at h
    obtain ⟨ho, rfl⟩ := (replayEmit_next hp).1 h
    exact .inr (.inl ⟨w, rest, rfl, ho, rfl⟩)
  | nil =>
    cases hf : (s.thread t).postMop with
    | nil => simp only [replayStep, hp, hf, Host.Outcome.next.injEq] at h; exact .inl ⟨h.symm, rfl, rfl⟩
    | cons w rest =>
      simp only [replayStep, hp, hf, replayTake] at h
      exact .inr (.inr ⟨w, rest, rfl, rfl, h⟩)

end Sys2Proof.Machine
end

