-- ==== Sys2Proof/Laws/Streams.lean ====
section
/-! SUPPORT. The functional models on a stream in two parts, and what the two functions carry over. -/

namespace Sys2Proof.Machine

/-- `F_mop` on a stream in two parts: the second part starts from the MaskHi the first one leaves. -/
theorem mopStream_append (cfg : MopCfg) (xs ys : List Word) (maskHi : BitVec 16) :
    mopStream cfg maskHi (xs ++ ys) =
      ((mopStream cfg maskHi xs).1 ++ (mopStream cfg (mopStream cfg maskHi xs).2 ys).1,
        (mopStream cfg (mopStream cfg maskHi xs).2 ys).2) := by
  induction xs generalizing maskHi with
  | nil => rfl
  | cons w rest ih => simp [mopStream, ih]

/-- `F_replay` on a stream in two parts: the second part starts from the unit the first one leaves. -/
theorem replayStream_append (xs ys : List Word) (u : ReplayUnit) :
    replayStream u (xs ++ ys) =
      ((replayStream u xs).1 ++ (replayStream (replayStream u xs).2 ys).1,
        (replayStream (replayStream u xs).2 ys).2) := by
  induction xs generalizing u with
  | nil => rfl
  | cons w rest ih => simp [replayStream, ih]

/-- What a thread comes to with more words in its FIFO is a function of what it comes to without them. -/
theorem ThreadState.settled_fifo_append (th : ThreadState) (ws : List Word) :
    { th with fifo := th.fifo ++ ws }.settled =
      (th.settled.1 ++ (replayStream th.settled.2.2 (mopStream th.mopCfg th.settled.2.1 ws).1).1,
        (mopStream th.mopCfg th.settled.2.1 ws).2,
        (replayStream th.settled.2.2 (mopStream th.mopCfg th.settled.2.1 ws).1).2) := by
  simp only [ThreadState.settled, mopStream_append, replayStream_append, ← List.append_assoc]

end Sys2Proof.Machine
end

