-- ==== Sys2Proof/Tests/Slice0.lean ====
section
/-! SUPPORT. Tests, every expected value taken from spec/95_test_vectors.md or from the rule named beside it, and for
every statement with hypotheses a witness that they can be met together. -/

namespace Sys2Proof.Tests

open Sys2Proof.Machine Sys2Proof.Safety

/-! Small states. -/

/-- `W(k)` of spec/95_test_vectors.md. -/
def W (k : Nat) : Word := 0x70000000 + BitVec.ofNat 32 k

/-- The MopCfg of V12 to V19, with its flags. -/
def cfg0 (flags : Word) : MopCfg :=
  #v[0xDEADBEEF, flags, 0xB0000000, 0xA0000000, 0xA1000000, 0xA2000000, 0xA3000000, 0xC0000000, 0xC1000000]

/-- The MopCfg of V32: outer and inner counts, LoopOp L, LoopOp1 M, Loop0Last Z, Loop1Last Y. -/
def cfg1 (outer inner start end0 end1 loop1 : Word) : MopCfg :=
  #v[outer, inner, start, end0, end1, 0x54000000, loop1, 0x56000000, 0x57000000]

/-- The start state with thread T1's state and the instruction's site given. -/
def at1 (stage : Stage) (th : ThreadState) : State := { State.reset with th1 := th, site := ⟨.t1, stage⟩ }

/-- The start state with TRISC1's actions given. -/
def with1 (program : List TriscAction) (th : ThreadState) : State :=
  { State.reset with th1 := th, trisc1 := { program := program, port := CorePort.reset } }

/-- The start state with BRISC's actions given. -/
def withB (program : List BriscAction) (th : ThreadState) : State :=
  { State.reset with th1 := th, brisc := { program := program, port := CorePort.reset } }

/-- Thread T1 after an outcome. -/
def after1 (r : Result) : Option ThreadState :=
  match r with
  | .next s => some s.th1
  | .fault _ => none
  | .refused _ => none

/-- A thread with a recording in progress. -/
def recording (r : Recording) : ThreadState := { ThreadState.reset with recording := some r }

/-! WellFormed: an OTHER with another row's opcode is ill formed, everything else is well formed. -/

theorem test_wf_other_01_refused : ¬ (Instr.other 0x01 0).WellFormed := by decide
theorem test_wf_other_02_refused : ¬ (Instr.other 0x02 0xABCDEF).WellFormed := by decide
theorem test_wf_other_03_refused : ¬ (Instr.other 0x03 0).WellFormed := by decide
theorem test_wf_other_04_refused : ¬ (Instr.other 0x04 0).WellFormed := by decide
theorem test_wf_other_05_refused : ¬ (Instr.other 0x05 0).WellFormed := by decide
theorem test_wf_other_60_refused : ¬ (Instr.other 0x60 0).WellFormed := by decide
theorem test_wf_other_8F_refused : ¬ (Instr.other 0x8F 0).WellFormed := by decide
theorem test_wf_accepts : (Instr.other 0x00 0).WellFormed ∧ (Instr.other 0x06 0).WellFormed ∧
    (Instr.other 0xFF 0xFFFFFF).WellFormed ∧ (Instr.mop .doubleLoop 127 0xFFFF).WellFormed ∧
    (Instr.mopCfg 0xFF 0).WellFormed ∧ (Instr.replay 1023 1023 3 true true).WellFormed := by decide

/-! Decoding: words of V50 and V51, written out bit by bit from the field lists of R81 to R84, for every row. -/

theorem test_decode_mop : decode 0b00000001_0_0000011_0000000000000101 = .mop .unpackZeroMask 3 5 ∧
    decode 0b00000001_1_0000000_0000000000000000 = .mop .doubleLoop 0 0 := by decide
theorem test_decode_mop_cfg : decode 0b00000011_00000000_1010101111001101 = .mopCfg 0 0xABCD ∧
    decode 0b00000011_11111111_0001001000110100 = .mopCfg 0xFF 0x1234 := by decide
theorem test_decode_replay : decode 0b00000100_0000011110_0000000100_00_0_1 = .replay 30 4 0 false true ∧
    decode 0b00000100_0000100001_0001000001_00_0_0 = .replay 33 65 0 false false ∧
    decode 0b00000100_0000000000_0000000101_11_1_0 = .replay 0 5 3 true false := by decide
theorem test_decode_nop : decode 0b00000010_101010111100110111101111 = .nop 0xABCDEF := by decide
theorem test_decode_resourcedecl : decode 0b00000101_000000000000000000000001 = .resourcedecl 1 := by decide
theorem test_decode_dmanop : decode 0b01100000_000000000000000000000000 = .dmanop 0 := by decide
theorem test_decode_sfpnop : decode 0b10001111_100000000000000000000000 = .sfpnop 0x800000 := by decide
theorem test_decode_other : decode 0b10100101_000000000000000000000001 = .other 0xA5 1 ∧
    decode 0 = .other 0 0 := by decide
theorem test_encode : encode (.replay 16 16 0 true true) = 0x04040103 ∧ encode (.mop .unpackZeroMask 127 0xFFFF) = 0x017FFFFF ∧
    encode (.mopCfg 0 1) = 0x03000001 ∧ encode (.sfpnop 0) = 0x8F000000 := by decide
theorem test_decode_table_word : decodeTableWord 32 0x01800000 = some (.mop .doubleLoop 0 0) ∧
    decodeTableWord 8 0x60 = some (.other 0 0x60) ∧ decodeTableWord 40 0x01800000 = none ∧
    decodeTableWord 32 0x100000000 = none := by decide

/-- V50 and V53: the `.ttinsn` form. -/
theorem test_ttinsn : ttinsnEncode 0x60000000 = 0x80000001 ∧ ttinsnEncode 0x04FFFFF3 = 0x13FFFFCC ∧
    ttinsnDecode 0x0400000F = 0xC1000003 := by decide

/-- V52: the macros add, they do not mask. -/
theorem test_macros_carry : ttOpMop 0 128 0 = 0x01800000 ∧ ttOpReplay 32 1 0 0 = 0x04080010 ∧
    llttReplayInsn 16 16 = 0x04040100 := by decide

/-- V54. -/
theorem test_is_nop : isNop 0x02ABCDEF = true ∧ isNop 0x02FFFFFF = true ∧ isNop 0x60000000 = false ∧
    isNop 0x8F000000 = false ∧ isNop 0 = false ∧ isNop 0x12000000 = false ∧ isNop 0x00000002 = false := by decide

/-! MOP, MOP_CFG. -/

/-- V12, V14, V15: one MOP with Template 0 at the MOP Expander. -/
theorem test_mop_template0 :
    (after1 (exec (decode 0x01030005) (at1 .mopExpander { ThreadState.reset with mopCfg := cfg0 1 }))).map (·.mopPending) =
      some [0xC0000000, 0xC1000000, 0xA0000000, 0xB0000000, 0xC0000000, 0xC1000000, 0xA0000000, 0xB0000000] ∧
    (after1 (exec (decode 0x01010002) (at1 .mopExpander { ThreadState.reset with mopCfg := cfg0 2 }))).map (·.mopPending) =
      some [0xA0000000, 0xA1000000, 0xA2000000, 0xA3000000, 0xC0000000] ∧
    (after1 (exec (decode 0x01000000) (at1 .mopExpander { ThreadState.reset with mopCfg := cfg0 3 }))).map (·.mopPending) =
      some [0xA0000000, 0xA1000000, 0xA2000000, 0xA3000000, 0xB0000000] := by decide

/-- V21, V23, V25, V32(a), V33: expansions of Template 1. -/
theorem test_mop_template1 :
    expandTemplate1 (cfg1 1 2 0x02000000 0x02000000 0x02000000 0x02000000) = [0x54000000, 0x56000000] ∧
    expandTemplate1 (cfg1 2 2 0x51000000 0x52000000 0x53000000 0x02000000) =
      [0x51000000, 0x54000000, 0x57000000, 0x52000000, 0x53000000,
       0x51000000, 0x54000000, 0x56000000, 0x52000000, 0x53000000] ∧
    expandTemplate1 (cfg1 2 1 0x02000000 0x02000000 0x53000000 0x02000000) = [0x57000000, 0x56000000] ∧
    expandTemplate1 (cfg1 2 2 0x02000000 0x02000000 0x02000000 0x55000000) =
      [0x54000000, 0x55000000, 0x54000000, 0x57000000, 0x54000000, 0x55000000, 0x54000000, 0x56000000] ∧
    expandTemplate1 ((cfg1 1 2 0x02000000 0x02000000 0x02000000 0x55000000).set 5 0x02000000) =
      [0x02000000, 0x55000000, 0x02000000, 0x56000000] := by decide

/-- V27, V28(a), V29(c) to (f), V31: zero counts, and where the hardware bug does not fire. -/
theorem test_template1_zero_counts :
    expandTemplate1 (cfg1 1 0 0x60000000 0x02000000 0x02000000 0x02000000) = [0x60000000] ∧
    expandTemplate1 (cfg1 1 0 0x8F000000 0x52000000 0x02000000 0x02000000) = [0x8F000000, 0x52000000] ∧
    expandTemplate1 (cfg1 2 0 0x02000000 0x52000000 0x02000000 0x02000000) = [0x52000000, 0x52000000] ∧
    expandTemplate1 (cfg1 1 0 0x02000000 0x02000000 0x53000000 0x02000000) = [] ∧
    expandTemplate1 (cfg1 1 1 0x02000000 0x52000000 0x02000000 0x02000000) = [0x56000000, 0x52000000] ∧
    expandTemplate1 (cfg1 128 5 0x51000000 0x52000000 0x53000000 0x02000000) = [] ∧
    expandTemplate1 (cfg1 129 0x81 0x02000000 0x02000000 0x02000000 0x02000000) = [0x56000000] := by decide

/-- V28(b), V29(a), V30: the hardware bug fires, 129 outer iterations. -/
theorem test_template1_hardware_bug :
    outerCount (cfg1 1 0 0x02ABCDEF 0x52000000 0x02000000 0x02000000) = 129 ∧
    outerCount (cfg1 1 0 0x02000000 0x52000000 0x53000000 0x55000000) = 129 ∧
    outerCount (cfg1 1 0 0x51000000 0x52000000 0x02000000 0x02000000) = 1 := by decide

/-- V34(d), (e): the numbers of iterations behind 16510 and 32639 words. -/
theorem test_template1_limits : outerCount (cfg1 127 127 0x51000000 0x52000000 0x53000000 0x02000000) = 127 ∧
    innerCount (cfg1 127 127 0x51000000 0x52000000 0x53000000 0x02000000) = 127 ∧
    innerCount (cfg1 0xFFFFFFFF 0xFFFFFFFF 0x51000000 0x52000000 0x53000000 0x55000000) = 254 := by decide

/-- V17(c): iterations 32 and on see a 0. -/
theorem test_template0_beyond_mask :
    (expandTemplate0 (cfg0 0) 33 0xFFFFFFFF).getLast? = some 0xA0000000 ∧
    (expandTemplate0 (cfg0 0) 32 0xFFFFFFFF).getLast? = some 0xC0000000 := by decide

/-- V19(c). -/
theorem test_mop_cfg_sets_mask_hi :
    (after1 (exec (decode 0x03FF1234) (at1 .mopExpander ThreadState.reset))).map (·.maskHi) = some 0x1234 ∧
    (after1 (exec (decode 0x03FF1234) (at1 .mopExpander ThreadState.reset))).map (·.postMop) = some [] := by decide

/-- V48(b): a MOP that enters after the MOP Expander is not expanded; its delivery is refused. -/
theorem test_mop_downstream :
    (match exec (decode 0x01800000) (at1 .replayExpander ThreadState.reset) with
      | .refused r => some r
      | .next _ => none
      | .fault _ => none) = some .expanderOpcodeDownstream := by decide

/-! REPLAY. -/

/-- V2, V38, V40: entering a recording. -/
theorem test_replay_record :
    (after1 (exec (decode 0x04040101) (at1 .replayExpander ThreadState.reset))).map (·.recording) =
      some (some { base := 16, i := 0, n := 16, exec := false }) ∧
    (after1 (exec (decode 0x04010001) (at1 .replayExpander ThreadState.reset))).map (·.recording) =
      some (some { base := 4, i := 0, n := 64, exec := false }) ∧
    (after1 (exec (decode 0x04FFFFF3) (at1 .replayExpander ThreadState.reset))).map (·.recording) =
      some (some { base := 31, i := 0, n := 63, exec := true }) := by decide

/-- The buffer of V37 after its recording. -/
def bufV37 : ReplayBuf := (((ThreadState.reset.replayBuf.set 30 (W 1)).set 31 (W 2)).set 0 (W 3)).set 1 (W 4)

/-- V37, V41: playback wraps modulo 32 and takes len modulo 64. -/
theorem test_replay_playback :
    (after1 (exec (decode 0x04078040) (at1 .replayExpander { ThreadState.reset with replayBuf := bufV37 }))).map
      (·.playPending) = some [W 1, W 2, W 3, W 4] ∧
    (after1 (exec (decode 0x04084410) (at1 .replayExpander { ThreadState.reset with replayBuf := bufV37 }))).map
      (·.playPending) = some [W 4] ∧
    (after1 (exec (decode 0x04078040) (at1 .replayExpander { ThreadState.reset with replayBuf := bufV37 }))).map
      (·.replayBusy) = some true := by decide

/-- V39, V42: a REPLAY that arrives during a recording is captured; the recording goes on, and ends with the n-th. -/
theorem test_capture :
    (after1 (exec (decode 0x04020030) (at1 .replayExpander (recording ⟨0, 0, 2, false⟩)))).map
      (fun th => (th.replayBuf[0], th.recording, th.out, th.playPending)) =
      some (0x04020030, some { base := 0, i := 1, n := 2, exec := false }, [], []) ∧
    (after1 (exec (decode 0x70000002) (at1 .replayExpander (recording ⟨31, 1, 2, true⟩)))).map
      (fun th => (th.replayBuf[0], th.recording, th.out)) = some (W 2, none, [W 2]) := by decide

/-! Pass-through: V49 at each unit. -/

theorem test_nop_passes :
    (after1 (exec (decode 0x02000000) (at1 .mopExpander ThreadState.reset))).map (·.postMop) = some [0x02000000] ∧
    (after1 (exec (decode 0x02000000) (at1 .replayExpander ThreadState.reset))).map (·.out) = some [0x02000000] := by decide
theorem test_resourcedecl_passes :
    (after1 (exec (decode 0x05000000) (at1 .mopExpander ThreadState.reset))).map (·.postMop) = some [0x05000000] ∧
    (after1 (exec (decode 0x05000000) (at1 .replayExpander ThreadState.reset))).map (·.out) = some [0x05000000] := by decide
theorem test_dmanop_passes :
    (after1 (exec (decode 0x60000000) (at1 .mopExpander ThreadState.reset))).map (·.postMop) = some [0x60000000] ∧
    (after1 (exec (decode 0x60000000) (at1 .replayExpander ThreadState.reset))).map (·.out) = some [0x60000000] := by decide
theorem test_sfpnop_passes :
    (after1 (exec (decode 0x8F000000) (at1 .mopExpander ThreadState.reset))).map (·.postMop) = some [0x8F000000] ∧
    (after1 (exec (decode 0x8F000000) (at1 .replayExpander ThreadState.reset))).map (·.out) = some [0x8F000000] := by decide
theorem test_other_passes :
    (after1 (exec (decode 0xA5000001) (at1 .mopExpander ThreadState.reset))).map (·.postMop) = some [0xA5000001] ∧
    (after1 (exec (decode 0xA5000001) (at1 .replayExpander ThreadState.reset))).map (·.out) = some [0xA5000001] := by decide
theorem test_replay_passes_mop_expander :
    (after1 (exec (decode 0x0400005C) (at1 .mopExpander ThreadState.reset))).map (·.postMop) = some [0x0400005C] := by
  decide

/-- R92: the step after reset runs the placed word, here a MOP_CFG. -/
theorem test_placed_word_runs :
    (match step (State.reset.withFetchWord 32 0x0300ABCD) with
      | .next s => some s.th0.maskHi
      | .fault _ => none
      | .refused _ => none) = some 0xABCD := by decide

/-! The cores. -/

/-- V56: routing, and the last register. -/
theorem test_store_mop_cfg :
    (after1 (coreStep (.trisc .t1) (with1 [.access (.store 0xFFB80014 4 0x04040100)] ThreadState.reset))).map
      (·.mopCfg[5]) = some 0x04040100 ∧
    (after1 (coreStep (.trisc .t1) (with1 [.access (.store 0xFFB80020 4 7)] ThreadState.reset))).map
      (·.mopCfg[8]) = some 7 := by decide

/-- V56: the shape, and the load. -/
theorem test_window_stops (s : State) :
    performAccess (.trisc .t1) (.store 0xFFB80002 2 7) s = .ok (.refused .mopCfgAccessShape) ∧
    performAccess (.trisc .t1) (.load 0xFFB80000 4) s = .ok (.fault .mopCfgRead) ∧
    performAccess .brisc (.store 0xFFB80000 4 7) s = .ok (.refused .briscMopCfgWindow) := ⟨rfl, rfl, rfl⟩

/-- V58: the 33rd push is held. -/
theorem test_full_fifo_holds :
    holdOf (.trisc .t1) (with1 [.push 1] { ThreadState.reset with fifo := List.replicate 32 0 }) = some .fifoFull ∧
    holdOf (.trisc .t1) (with1 [.push 1] { ThreadState.reset with fifo := List.replicate 31 0 }) = none := by decide

/-- R60: `mop_sync` waits for the FIFO too (decision D4, log 5). -/
theorem test_mop_sync_waits :
    holdOf (.trisc .t1) (with1 [.mopSync 0] { ThreadState.reset with fifo := [0x01800000] }) = some .mopSync ∧
    holdOf (.trisc .t1) (with1 [.mopSync 0] ThreadState.reset) = none := by decide

/-- V55(b): thread 1's MOP Expander busy, all else idle. -/
theorem test_qstatus_mop_busy :
    qstatus (with1 [] { ThreadState.reset with mopBusy := true }) .t1 &&& 0x6003 = 0x4002 ∧
    qstatus (with1 [] { ThreadState.reset with mopBusy := true }) .t2 &&& 0x6003 = 0x4000 := by
  constructor <;>
    (ext k hk
     interval_cases k <;>
       simp [qstatus, fieldAt_getElem, with1, State.thread, anyReplayBusy, anyMopBusy, replayBusySeen, State.reset,
         ThreadState.reset])

/-- R38: a write of CSR 0x7C0 keeps bit 18. -/
theorem test_gather_csr_write :
    (match coreStep .brisc (withB [.access (.csrWrite 0x7C0 0x00040000)] ThreadState.reset) with
      | .next s => some s.brisc.port.gathering
      | .fault _ => none
      | .refused _ => none) = some true := by decide

/-- V39: the run has come to rest with an open recording. -/
theorem test_run_status : runStatus (with1 [] (recording ⟨0, 1, 3, false⟩)) = .stuckRecordingIncomplete ∧
    runStatus State.reset = .final ∧ runStatus (with1 [.push 0] ThreadState.reset) = .running := by decide

/-- V17, V19(c), V44, V47: the findings, which stop nothing; where two apply, both are there (log 35). -/
theorem test_findings :
    findings (decode 0x0121FFFF) (at1 .mopExpander ThreadState.reset) = [.mopT0CountBeyondMask, .unwrittenMopCfg 1] ∧
    findings (decode 0x01000000) (at1 .mopExpander ThreadState.reset) = [.unwrittenMopCfg 1] ∧
    findings (decode 0x03FF1234) (at1 .mopExpander ThreadState.reset) = [.reservedBits] ∧
    findings (decode 0x0400005C) (at1 .replayExpander ThreadState.reset) = [.reservedBits, .unwrittenReplaySlot 0] ∧
    findings (decode 0x04014020) (at1 .replayExpander ThreadState.reset) = [.unwrittenReplaySlot 5] ∧
    findings (decode 0x04014021) (at1 .replayExpander ThreadState.reset) = [] := by decide

/-! Witnesses: the hypotheses of each statement that has some are met together by the state and operands given, each
clause at a boundary of its range. A statement is named after `witness_`. -/

theorem witness_DecodeOfEncodeIsIdentity : (Instr.mop .doubleLoop 127 0xFFFF).WellFormed ∧ (Instr.nop 0xFFFFFF).WellFormed ∧
    (Instr.mopCfg 0xFF 0xFFFF).WellFormed ∧ (Instr.replay 1023 1023 3 true true).WellFormed ∧
    (Instr.resourcedecl 0).WellFormed ∧ (Instr.dmanop 0).WellFormed ∧ (Instr.sfpnop 0).WellFormed ∧
    (Instr.other 0x00 0).WellFormed ∧ (Instr.other 0xFF 0).WellFormed := by decide

/-- For MopCfgSetsMaskHi, MopStartsItsExpansion, Template1IgnoresTheWordFields and the first clause of
UnusedBitsAreIgnored. -/
theorem witness_at_mop_expander : ∃ (s : State) (t : ThreadId), s.site = ⟨t, .mopExpander⟩ :=
  ⟨at1 .mopExpander ThreadState.reset, .t1, rfl⟩

/-- For RecordModeEntersRecording, PlaybackEmitsTheAddressedSlots, MopDownstreamIsRefused. -/
theorem witness_at_replay_expander :
    ∃ (s : State) (t : ThreadId), s.site = ⟨t, .replayExpander⟩ ∧ (s.thread t).recording = none :=
  ⟨at1 .replayExpander ThreadState.reset, .t1, rfl, rfl⟩

theorem witness_OperandsOfTheWord : opcodeOf 0x01FFFFFF = 0x01#8 ∧ opcodeOf 0x01000000 = 0x01#8 ∧
    opcodeOf 0x04FFFFFF = 0x04#8 ∧ opcodeOf 0x04000000 = 0x04#8 := by decide

theorem witness_Template0Length : (cfg0 0)[1].getLsbD 0 = false ∧ (cfg0 0)[1].getLsbD 1 = false ∧
    (cfg0 3)[1].getLsbD 0 = true ∧ (cfg0 3)[1].getLsbD 1 = true := by decide

theorem witness_LargestExpansion :
    (∃ cfg : MopCfg, cfg[0].toNat % 128 = 127 ∧ cfg[1].toNat % 128 = 127 ∧ isNop cfg[6] = false ∧
      isNop cfg[2] = false ∧ isNop cfg[3] = false ∧ isNop cfg[4] = false) ∧
    (∃ cfg : MopCfg, cfg[0].toNat % 128 = 1 ∧ cfg[1].toNat % 128 = 0 ∧ isNop cfg[2] = true ∧ isNop cfg[3] = false) :=
  ⟨⟨cfg1 127 127 0x51000000 0x52000000 0x53000000 0x55000000, by decide⟩,
    ⟨cfg1 1 0 0x02000000 0x52000000 0x53000000 0x55000000, by decide⟩⟩

theorem witness_Template1HardwareBug :
    (∃ cfg : MopCfg, cfg[0].toNat % 128 = 1 ∧ cfg[1].toNat % 128 = 0 ∧ isNop cfg[2] = true ∧ isNop cfg[3] = false) ∧
    (∃ cfg : MopCfg, cfg[0].toNat % 128 = 1 ∧ cfg[1].toNat % 128 = 0 ∧ isNop cfg[2] = true ∧ isNop cfg[3] = true) ∧
    (∃ cfg : MopCfg, cfg[0].toNat % 128 = 1 ∧ cfg[1].toNat % 128 = 0 ∧ isNop cfg[2] = false ∧ isNop cfg[3] = false) ∧
    (∃ cfg : MopCfg, ¬ (cfg[0].toNat % 128 = 1 ∧ cfg[1].toNat % 128 = 0 ∧ isNop cfg[2] = true ∧ isNop cfg[3] = false)) :=
  ⟨⟨cfg1 1 0 0x02000000 0x52000000 0x53000000 0x55000000, by decide⟩,
    ⟨cfg1 1 0 0x02000000 0x02000000 0x53000000 0x55000000, by decide⟩,
    ⟨cfg1 1 0 0x51000000 0x52000000 0x53000000 0x55000000, by decide⟩,
    ⟨cfg1 1 1 0x02000000 0x52000000 0x53000000 0x55000000, by decide⟩⟩

theorem witness_Template1ZeroCounts :
    (∃ cfg : MopCfg, cfg[0].toNat % 128 = 0) ∧
    (∃ cfg : MopCfg, 1 ≤ cfg[0].toNat % 128 ∧ cfg[1].toNat % 128 = 0 ∧ isNop cfg[2] = true ∧ isNop cfg[3] = true) ∧
    (∃ (cfg : MopCfg) (a b : Word), a.toNat % 128 = cfg[0].toNat % 128 ∧ b.toNat % 128 = cfg[1].toNat % 128 ∧
      a ≠ cfg[0] ∧ b ≠ cfg[1]) :=
  ⟨⟨cfg1 128 5 0x51000000 0x52000000 0x53000000 0x55000000, by decide⟩,
    ⟨cfg1 127 128 0x02000000 0x02000000 0x53000000 0x55000000, by decide⟩,
    ⟨cfg1 1 127 0x51000000 0x52000000 0x53000000 0x55000000, 129, 0xFFFFFFFF, by decide⟩⟩

theorem witness_UnusedBitsAreIgnored :
    ∃ (s : State) (t : ThreadId) (a b a' b' : BitVec 10) (e e' l : Bool), s.site = ⟨t, .replayExpander⟩ ∧
      (s.thread t).recording = none ∧ a.toNat % 32 = a'.toNat % 32 ∧ b.toNat % 64 = b'.toNat % 64 ∧
      (l = true → e = e') ∧ a ≠ a' ∧ b ≠ b' ∧ e ≠ e' :=
  ⟨at1 .replayExpander ThreadState.reset, .t1, 31, 0, 1023, 64, true, false, false, rfl, rfl, by decide, by decide,
    by decide, by decide, by decide, by decide⟩

theorem witness_RecordingCapturesEveryInstruction :
    (∃ (s : State) (t : ThreadId) (r : Recording), s.site = ⟨t, .replayExpander⟩ ∧
      (s.thread t).recording = some r ∧ r.exec = false) ∧
    (∃ (s : State) (t : ThreadId) (r : Recording) (i : Instr), s.site = ⟨t, .replayExpander⟩ ∧
      (s.thread t).recording = some r ∧ r.exec = true ∧ opcodeOf (encode i) ∉ [0x01#8, 0x03#8, 0x04#8]) ∧
    (∃ (s : State) (t : ThreadId) (r : Recording) (i : Instr), s.site = ⟨t, .replayExpander⟩ ∧
      (s.thread t).recording = some r ∧ r.exec = true ∧ opcodeOf (encode i) ∈ [0x01#8, 0x03#8, 0x04#8]) :=
  ⟨⟨at1 .replayExpander (recording ⟨31, 63, 64, false⟩), .t1, _, rfl, rfl, rfl⟩,
    ⟨at1 .replayExpander (recording ⟨31, 63, 64, true⟩), .t1, _, .nop 0, rfl, rfl, rfl, by decide⟩,
    ⟨at1 .replayExpander (recording ⟨31, 63, 64, true⟩), .t1, _, .replay 0 0 0 false false, rfl, rfl, rfl, by decide⟩⟩

theorem witness_RecordThenPlaybackGivesTheLastWords :
    ∃ (u : ReplayUnit) (a b : BitVec 10) (ws : List Word) (k : Fin 32), u.recording = none ∧
      ws.length = replayCount b ∧ ∀ i < ws.length, replaySlot (replayIndex a) i ≠ k :=
  ⟨⟨ThreadState.reset.replayBuf, none⟩, 31, 2, [1, 2], 1, rfl, by decide, by decide⟩

theorem witness_RecordThenPlayback_64 : (List.replicate 64 (0 : Word)).length = replayCount 0 := by decide

/-- The six constructors of MopExpanderPassesOtherWords. -/
theorem witness_MopExpanderPassesOtherWords :
    ∀ i ∈ [Instr.nop 0, .replay 0 0 0 false false, .resourcedecl 0, .dmanop 0, .sfpnop 0, .other 0xFF 0],
      opcodeOf (encode i) ≠ 0x01#8 ∧ opcodeOf (encode i) ≠ 0x03#8 ∧
        (at1 .mopExpander ThreadState.reset).site = ⟨.t1, .mopExpander⟩ := by decide

/-- The five constructors of ReplayExpanderPassesOtherWords. -/
theorem witness_ReplayExpanderPassesOtherWords :
    ∀ i ∈ [Instr.nop 0, .resourcedecl 0, .dmanop 0, .sfpnop 0, .other 0xFF 0],
      opcodeOf (encode i) ∉ [0x01#8, 0x03#8, 0x04#8] ∧
        (at1 .replayExpander ThreadState.reset).site = ⟨.t1, .replayExpander⟩ ∧
        ((at1 .replayExpander ThreadState.reset).thread .t1).recording = none := by decide

theorem witness_MopTurnRunsTheDecodedInstruction : ∃ (s : State) (t : ThreadId) (turns : List Agent) (w : Word)
    (rest : List Word), s.schedule = .expander ⟨t, .mopExpander⟩ :: turns ∧ (s.thread t).mopPending = [] ∧
      (s.thread t).fifo = w :: rest :=
  ⟨{ with1 [] { ThreadState.reset with fifo := [W 1] } with schedule := [.expander ⟨.t1, .mopExpander⟩] }, .t1, _, _, _,
    rfl, rfl, rfl⟩

theorem witness_ReplayTurnRunsTheDecodedInstruction : ∃ (s : State) (t : ThreadId) (turns : List Agent) (w : Word)
    (rest : List Word), s.schedule = .expander ⟨t, .replayExpander⟩ :: turns ∧ (s.thread t).playPending = [] ∧
      (s.thread t).postMop = w :: rest :=
  ⟨{ with1 [] { ThreadState.reset with postMop := [W 1] } with schedule := [.expander ⟨.t1, .replayExpander⟩] }, .t1,
    _, _, _, rfl, rfl, rfl⟩

theorem witness_MopTurnEmitsOnePendingWord :
    ∃ (s : State) (t : ThreadId) (w : Word) (rest : List Word), (s.thread t).mopPending = w :: rest :=
  ⟨with1 [] { ThreadState.reset with mopPending := [W 1] }, .t1, _, _, rfl⟩

theorem witness_ReplayTurnDeliversOnePendingWord :
    (∃ (s : State) (t : ThreadId) (w : Word) (rest : List Word), (s.thread t).playPending = w :: rest ∧
      opcodeOf w ∉ [0x01#8, 0x03#8, 0x04#8]) ∧
    (∃ (s : State) (t : ThreadId) (w : Word) (rest : List Word), (s.thread t).playPending = w :: rest ∧
      opcodeOf w ∈ [0x01#8, 0x03#8, 0x04#8]) :=
  ⟨⟨with1 [] { ThreadState.reset with playPending := [W 1] }, .t1, _, _, rfl, by decide⟩,
    ⟨with1 [] { ThreadState.reset with playPending := [0x04020030] }, .t1, _, _, rfl, by decide⟩⟩

theorem witness_IdleTurnsChangeNothing :
    (∃ (s : State) (t : ThreadId), (s.thread t).mopPending = [] ∧ (s.thread t).fifo = [] ∧
      (s.thread t).playPending = [] ∧ (s.thread t).postMop = [] ∧ (s.trisc t).program = [] ∧ s.brisc.program = []) ∧
    (∃ (s : State) (c : CoreId) (h : Hold), holdOf c s = some h) :=
  ⟨⟨State.reset, .t0, rfl, rfl, rfl, rfl, rfl, rfl⟩,
    ⟨with1 [.mopSync 0] { ThreadState.reset with mopBusy := true }, .trisc .t1, .mopSync, rfl⟩⟩

theorem witness_PushEntersOwnFifoOrIsHeld :
    (∃ (s : State) (t : ThreadId) (w : Word) (rest : List TriscAction), (s.trisc t).program = .push w :: rest ∧
      (s.thread t).fifo.length < 32) ∧
    (∃ (s : State) (t : ThreadId) (w : Word) (rest : List TriscAction), (s.trisc t).program = .push w :: rest ∧
      32 ≤ (s.thread t).fifo.length) :=
  ⟨⟨with1 [.push 1] { ThreadState.reset with fifo := List.replicate 31 0 }, .t1, _, _, rfl, by decide⟩,
    ⟨with1 [.push 1] { ThreadState.reset with fifo := List.replicate 32 0 }, .t1, _, _, rfl, by decide⟩⟩

theorem witness_WindowStoreReachesOwnThread :
    (∃ (s : State) (t : ThreadId) (i : Fin 9) (v : Word) (rest : List TriscAction),
      (s.trisc t).program = .access (.store (0xFFB80000 + 4 * BitVec.ofNat 32 i.val) 4 v) :: rest ∧
      (s.thread t).mopBusy = false) ∧
    (∃ (s s' : State) (t : ThreadId) (addr : Word) (width : Nat) (v : Word), 0xFFB80000 ≤ addr.toNat ∧
      addr.toNat ≤ 0xFFB80023 ∧ performAccess (.trisc t) (.store addr width v) s = .ok (.next s')) :=
  ⟨⟨with1 [.access (.store 0xFFB80020 4 7)] ThreadState.reset, .t1, 8, 7, [], rfl, rfl⟩,
    ⟨State.reset, _, .t1, 0xFFB80020, 4, 7, by decide, by decide, rfl⟩⟩

/-- The first of BRISC's addresses reaches the first register, whatever the addresses are. -/
theorem brisc_first_target : briscMopCfgTarget (Config.briscMopCfgAddr .t0 0) = some (.t0, 0) := by
  have h : briscTargets = (.t0, 0) :: briscTargets.tail := by decide
  rw [briscMopCfgTarget, h]
  simp

theorem witness_MopCfgStoreDuringExpansionFaults :
    (∃ (s : State) (t : ThreadId) (i : Fin 9) (v : Word) (rest : List TriscAction),
      (s.trisc t).program = .access (.store (0xFFB80000 + 4 * BitVec.ofNat 32 i.val) 4 v) :: rest ∧
      (s.thread t).mopBusy = true) ∧
    (∃ (s : State) (t : ThreadId) (i : Fin 9) (v : Word) (rest : List BriscAction),
      s.brisc.program = .writeMopCfg t i v :: rest ∧ (s.thread t).mopBusy = true) ∧
    (∃ (s : State) (t : ThreadId) (i : Fin 9) (addr : Word), briscMopCfgTarget addr = some (t, i) ∧
      (s.thread t).mopBusy = true) :=
  ⟨⟨with1 [.access (.store 0xFFB80000 4 7)] { ThreadState.reset with mopBusy := true, mopPending := [W 1] }, .t1, 0, 7,
      [], rfl, rfl⟩,
    ⟨withB [.writeMopCfg .t1 8 7] { ThreadState.reset with mopBusy := true, mopPending := [W 1] }, .t1, 8, 7, [], rfl, rfl⟩,
    ⟨{ State.reset with th0 := { ThreadState.reset with mopBusy := true, mopPending := [W 1] } }, .t0, 0, _,
      brisc_first_target, rfl⟩⟩

theorem witness_LoadFromMopCfgFaults : ∀ addr ∈ [(0xFFB80000 : Word), 0xFFB80023],
    0xFFB80000 ≤ addr.toNat ∧ addr.toNat ≤ 0xFFB80023 := by simp

theorem witness_WindowStoresRefusedInOrder :
    (∀ p ∈ [((0xFFB80001 : Word), 4), (0xFFB80023, 1), (0xFFB80000, 2), (0xFFB80020, 8)],
      0xFFB80000 ≤ p.1.toNat ∧ p.1.toNat ≤ 0xFFB80023 ∧ ¬ (p.2 = 4 ∧ p.1.toNat % 4 = 0)) ∧
    (∀ addr ∈ [(0xFFB80000 : Word), 0xFFB80020],
      0xFFB80000 ≤ addr.toNat ∧ addr.toNat ≤ 0xFFB80023 ∧ ((4 : Nat) = 4 ∧ addr.toNat % 4 = 0)) := by simp

theorem witness_UndescribedAddressesRefused :
    (∃ addr : Word, (addr.toNat < 0xFFB80000 ∨ 0xFFB80023 < addr.toNat) ∧ addr ≠ Config.pcBufBase + 8) ∧
    (∃ addr : Word, (addr.toNat < 0xFFB80000 ∨ 0xFFB80023 < addr.toNat) ∧ ∀ t i, Config.briscMopCfgAddr t i ≠ addr) ∧
    (∀ addr ∈ [(0xFFB7FFFF : Word), 0xFFB80024], addr.toNat < 0xFFB80000 ∨ 0xFFB80023 < addr.toNat) := by
  refine ⟨?_, ?_, by simp⟩
  · by_cases h : (0xFFB80024 : Word) = Config.pcBufBase + 8
    · exact ⟨0xFFB7FFFF, by decide, by rw [← h]; decide⟩
    · exact ⟨0xFFB80024, by decide, h⟩
  · -- 28 addresses, of which BRISC's 27 cannot be all
    let used : Finset Word := (briscTargets.map fun p => Config.briscMopCfgAddr p.1 p.2).toFinset
    let free : Finset Word := (List.range 28).toFinset.image fun k => BitVec.ofNat 32 k
    obtain ⟨a, ha, hn⟩ : ∃ a ∈ free, a ∉ used := by
      refine Finset.exists_mem_notMem_of_card_lt_card (lt_of_le_of_lt (List.toFinset_card_le _) ?_)
      rw [List.length_map, show briscTargets.length = 27 by decide, show free.card = 28 by decide]
      omega
    refine ⟨a, .inl ?_, fun t i h => hn ?_⟩
    · simp only [free, Finset.mem_image, List.mem_toFinset, List.mem_range] at ha
      obtain ⟨k, hk, rfl⟩ := ha
      rw [BitVec.toNat_ofNat]; omega
    · simp only [used, List.mem_toFinset, List.mem_map]
      refine ⟨(t, i), ?_, h⟩
      cases t <;> simp [briscTargets]

theorem witness_MopSyncWaitsForIdle :
    (∃ (s : State) (t : ThreadId) (v : Word) (rest : List TriscAction), (s.trisc t).program = .mopSync v :: rest ∧
      (s.thread t).mopBusy = false ∧ (s.thread t).fifo = []) ∧
    (∃ (s : State) (t : ThreadId) (v : Word) (rest : List TriscAction), (s.trisc t).program = .mopSync v :: rest ∧
      ((s.thread t).mopBusy = true ∨ (s.thread t).fifo ≠ [])) :=
  ⟨⟨with1 [.mopSync 0] ThreadState.reset, .t1, _, _, rfl, rfl, rfl⟩,
    ⟨with1 [.mopSync 0] { ThreadState.reset with fifo := [W 1] }, .t1, _, _, rfl, .inr (by decide)⟩⟩

theorem witness_QstatusReportsTheBusyFlags : ∃ (s : State) (t : ThreadId) (rest : List TriscAction),
    (s.trisc t).program = .access (.csrRead 0xBC0) :: rest ∧ (∀ t', (s.thread t').recording = none) :=
  ⟨with1 [.access (.csrRead 0xBC0)] ThreadState.reset, .t1, _, rfl, fun t' => by cases t' <;> rfl⟩

theorem witness_BriscActsAfterTheMopExpander :
    (∃ (s : State) (t : ThreadId) (w : Word) (rest : List BriscAction), s.brisc.program = .pushPostMop t w :: rest) ∧
    (∃ (s : State) (t : ThreadId) (i : Fin 9) (v : Word) (rest : List BriscAction),
      s.brisc.program = .writeMopCfg t i v :: rest ∧ (s.thread t).mopBusy = false) ∧
    (∃ (t : ThreadId) (i : Fin 9) (addr : Word), briscMopCfgTarget addr = some (t, i)) :=
  ⟨⟨withB [.pushPostMop .t1 1] ThreadState.reset, .t1, _, _, rfl⟩,
    ⟨withB [.writeMopCfg .t1 8 7] ThreadState.reset, .t1, _, _, _, rfl, rfl⟩, ⟨.t0, 0, _, brisc_first_target⟩⟩

theorem witness_CsrAccessesRefusedByName : (0xBBF : Nat) ≠ 0xBC0 ∧ (0xBBF : Nat) ≠ 0x7C0 := by decide

theorem witness_ProgrammingTemplate1SetsAllNine :
    ∃ (s : State) (t : ThreadId) (cfg : MopCfg) (rest : List TriscAction) (turns : List Agent),
      (s.trisc t).program = programTemplate1 cfg ++ rest ∧ (s.thread t).mopBusy = false ∧
      s.schedule = List.replicate 9 (.core (.trisc t)) ++ turns :=
  ⟨{ with1 (programTemplate1 (cfg0 1)) ThreadState.reset with schedule := List.replicate 9 (.core (.trisc .t1)) }, .t1,
    cfg0 1, [], [], rfl, rfl, rfl⟩

/-- A turn of TRISC1 that stores to MopCfg[8]. -/
theorem witness_MopCfgChangesOnlyByStores : ∃ (a : Agent) (s s' : State) (t : ThreadId), agentStep a s = .next s' ∧
    (s'.thread t).mopCfg ≠ (s.thread t).mopCfg :=
  ⟨.core (.trisc .t1), with1 [.access (.store 0xFFB80020 4 7)] ThreadState.reset, _, .t1, rfl,
    fun h => absurd (congrArg (fun v : MopCfg => v[8]) h) (by decide)⟩

/-- The take of a MOP_CFG. -/
theorem witness_MaskHiChangesOnlyByMopCfg : ∃ (a : Agent) (s s' : State) (t : ThreadId), agentStep a s = .next s' ∧
    (s'.thread t).maskHi ≠ (s.thread t).maskHi :=
  ⟨.expander ⟨.t1, .mopExpander⟩, with1 [] { ThreadState.reset with fifo := [0x0300ABCD] }, _, .t1, rfl, by decide⟩

/-- The capture of a word. -/
theorem witness_ReplayBufChangesOnlyByRecording : ∃ (a : Agent) (s s' : State) (t : ThreadId),
    agentStep a s = .next s' ∧ (s'.thread t).replayBuf ≠ (s.thread t).replayBuf :=
  ⟨.expander ⟨.t1, .replayExpander⟩,
    with1 [] { recording ⟨31, 63, 64, false⟩ with postMop := [W 1] }, _, .t1, rfl,
    fun h => absurd (congrArg (fun v : ReplayBuf => v[30]) h) (by decide)⟩

theorem witness_ThreadsShareNoState :
    (∃ (a : Agent) (s s' : State) (t : ThreadId),
      (a = .expander ⟨t, .mopExpander⟩ ∨ a = .expander ⟨t, .replayExpander⟩ ∨ a = .core (.trisc t)) ∧
      agentStep a s = .next s') ∧
    (∃ (s : State) (t u : ThreadId), (s.trisc t).program ≠ [] ∧
      (∀ rest, (s.trisc t).program ≠ .access (.csrRead 0xBC0) :: rest) ∧ u ≠ t) :=
  ⟨⟨.expander ⟨.t1, .mopExpander⟩, with1 [] { ThreadState.reset with fifo := [W 1] }, _, .t1, .inl rfl, rfl⟩,
    ⟨with1 [.access (.csrRead 0x7C0)] ThreadState.reset, .t1, .t0, by decide,
      fun _ h => absurd (List.cons.inj h).1 (by decide), by decide⟩⟩

theorem witness_MopExpanderRefinesItsModel :
    ∃ (s : State) (t : ThreadId), s.site = ⟨t, .mopExpander⟩ ∧ (s.thread t).mopPending = [] :=
  ⟨at1 .mopExpander ThreadState.reset, .t1, rfl, rfl⟩

/-- Both clauses: a word the model passes with an expander's opcode, and one that is not so. -/
theorem witness_ReplayExpanderRefinesItsModel :
    ∃ (s : State) (t : ThreadId), s.site = ⟨t, .replayExpander⟩ ∧ (s.thread t).playPending = [] ∧
      (s.thread t).recording = none ∧
      (opcodeOf 0x01800000 ≠ 0x04#8 ∧ opcodeOf 0x01800000 ∈ [0x01#8, 0x03#8, 0x04#8]) ∧
      opcodeOf (W 1) ∉ [0x01#8, 0x03#8, 0x04#8] :=
  ⟨at1 .replayExpander ThreadState.reset, .t1, rfl, rfl, rfl, by decide, by decide⟩

/-- The take of a MOP whose expansion is not empty. -/
theorem witness_UnitTurnsKeepWhatAThreadComesTo : ∃ (site : Site) (s s' : State), expanderStep site s = .next s' ∧ s' ≠ s :=
  ⟨⟨.t1, .mopExpander⟩, with1 [] { ThreadState.reset with fifo := [0x01000000], mopCfg := cfg0 0 }, _, rfl, by decide⟩

/-- Two turns that carry one word from the FIFO to `Out`. -/
theorem witness_OutputDoesNotDependOnTheSchedule : ∃ (k : Nat) (s s' : State) (t : ThreadId), coresDone s = true ∧
    Sys2Proof.core.run k s = .next s' ∧ (s'.thread t).quiescent = true ∧ (s.thread t).quiescent = false :=
  ⟨2, { with1 [] { ThreadState.reset with fifo := [W 1] } with
      schedule := [.expander ⟨.t1, .mopExpander⟩, .expander ⟨.t1, .replayExpander⟩] }, _, .t1, rfl, rfl, rfl, rfl⟩

theorem witness_GatherCsrAccessesComplete :
    (∃ (s : State) (t : ThreadId) (rest : List TriscAction), (s.trisc t).program = .access (.csrRead 0x7C0) :: rest) ∧
    (∃ (s : State) (t : ThreadId) (v : Word) (rest : List TriscAction),
      (s.trisc t).program = .access (.csrWrite 0x7C0 v) :: rest) ∧
    (∃ (s : State) (rest : List BriscAction), s.brisc.program = .access (.csrRead 0x7C0) :: rest) ∧
    (∃ (s : State) (v : Word) (rest : List BriscAction), s.brisc.program = .access (.csrWrite 0x7C0 v) :: rest) :=
  ⟨⟨with1 [.access (.csrRead 0x7C0)] ThreadState.reset, .t1, _, rfl⟩,
    ⟨with1 [.access (.csrWrite 0x7C0 0x40000)] ThreadState.reset, .t1, _, _, rfl⟩,
    ⟨withB [.access (.csrRead 0x7C0)] ThreadState.reset, _, rfl⟩,
    ⟨withB [.access (.csrWrite 0x7C0 0x40000)] ThreadState.reset, _, _, rfl⟩⟩

/-- TRISC1's turn, with a push to come. -/
theorem witness_TurnsKeepWhatAThreadWillDeliver : ∃ s s' : State, s.undisturbed .t1 = true ∧ step s = .next s' ∧
    (s'.thread .t1).fifo ≠ (s.thread .t1).fifo :=
  ⟨{ with1 [.push (W 1), .mopSync 0] ThreadState.reset with schedule := [.core (.trisc .t1)] }, _, rfl, rfl, by decide⟩

theorem witness_RunStatusAtTheEnd : (∃ s : State, runStatus s = .stuckRecordingIncomplete) ∧
    (∃ s : State, runStatus s = .final) ∧ (∃ s : State, runStatus s = .running) :=
  ⟨⟨with1 [] (recording ⟨0, 1, 3, false⟩), rfl⟩, ⟨State.reset, rfl⟩, ⟨with1 [.push 0] ThreadState.reset, rfl⟩⟩

/-- A state with an expansion in progress that meets the invariant, and a step from it. -/
theorem witness_StepKeepsTheInvariant : ∃ s s' : State, Inv s ∧ step s = .next s' :=
  ⟨{ with1 [] { ThreadState.reset with mopPending := [W 1], mopBusy := true } with
      schedule := [.expander ⟨.t1, .mopExpander⟩] }, _,
    fun t => by
      cases t <;> exact ⟨by decide, by decide, rfl, by decide, rfl, fun h => absurd rfl h, (fun r h => nomatch h),
        (fun w h => nomatch h)⟩, rfl⟩

end Sys2Proof.Tests
end

section
/-! The MopCfg window (spec/20_memory.md R52, R53, R55): which addresses lie in it, what a TRISC's word store to a
register's address does, and what a load there does. -/

namespace Sys2Proof.Machine

open Sys2Proof.Safety

/-! Addresses. -/

/-- The window is 0xFFB80000 .. 0xFFB80023 (R52). -/
theorem inMopCfgWindow_iff {addr : Word} :
    inMopCfgWindow addr = true ↔ 0xFFB80000 ≤ addr.toNat ∧ addr.toNat ≤ 0xFFB80023 := by
  have hbase : Config.mopCfgBase.toNat = 0xFFB80000 := rfl
  simp only [inMopCfgWindow, Config.mopCfgCount, hbase, decide_eq_true_eq]
  omega

theorem inMopCfgWindow_registerAddr (i : Fin 9) :
    inMopCfgWindow (0xFFB80000 + 4 * BitVec.ofNat 32 i.val) = true := by
  revert i; decide

theorem wordShape_registerAddr (i : Fin 9) : wordShape (0xFFB80000 + 4 * BitVec.ofNat 32 i.val) 4 = true := by
  revert i; decide

/-! Accesses. -/

/-- A TRISC's word store at the address of register i is a write of its own thread's register i (R52, R53). -/
theorem performAccess_storeRegister (t : ThreadId) (i : Fin 9) (v : Word) (s : State) :
    performAccess (.trisc t) (.store (0xFFB80000 + 4 * BitVec.ofNat 32 i.val) 4 v) s = .ok (writeMopCfg t i v s) := by
  simp only [performAccess, performStore, storeMopCfgWindow, inMopCfgWindow_registerAddr, wordShape_registerAddr,
    mopCfgIndex_registerAddr, if_true]

theorem performAccess_loadWindow {addr : Word} (hw : inMopCfgWindow addr = true) (c : CoreId) (width : Nat)
    (s : State) : performAccess c (.load addr width) s = .ok (.fault .mopCfgRead) := by
  simp only [performAccess, performLoad, hw, if_true]

/-- An access that a TRISC completes, a store in the window of any width among them, changes no thread but its own
(R53). -/
theorem sameThreadsBut_of_triscAccess {t : ThreadId} {a : CoreAccess} {s s' : State}
    (h : performAccess (.trisc t) a s = .ok (.next s')) : sameThreadsBut t s s' := by
  intro u hu
  obtain hsame | ⟨t', i, v, addr, -, ⟨ht', -⟩ | ⟨ht', -⟩, -, rfl⟩ := performAccess_next h
  · exact hsame u
  · cases ht'
    exact State.thread_setThread_ne _ _ _ _ hu
  · cases ht'

/-! Turns. -/

theorem coreStep_trisc_of_performTrisc {t : ThreadId} {a : TriscAction} {rest : List TriscAction} {s : State}
    {r : Result} (hp : (s.trisc t).program = a :: rest)
    (hr : performTrisc t a (s.setTriscProgram t rest) = .ok r) : coreStep (.trisc t) s = r := by
  simp only [coreStep, attempt, hp, hr]

/-- That a TRISC moves past an action and a thread changes is within the TRISC's frame. -/
theorem coreFrame_setTriscProgram_setThread (s : State) (t u : ThreadId) (rest : List TriscAction)
    (th : ThreadState) : coreFrame (.trisc t) s ((s.setTriscProgram t rest).setThread u th) := by
  refine ⟨fun c => by simp, fun t' hne => ?_, fun _ => by simp, by simp [sameControl]⟩
  have ht' : t' ≠ t := fun e => hne (congrArg CoreId.trisc e.symm)
  simp [ht']

/-- A TRISC's turn whose next action is a word store at the address of register i (R52, R53, R58). -/
theorem coreStep_storeRegister {s : State} {t : ThreadId} {i : Fin 9} {v : Word} {rest : List TriscAction}
    (hp : (s.trisc t).program = .access (.store (0xFFB80000 + 4 * BitVec.ofNat 32 i.val) 4 v) :: rest) :
    coreStep (.trisc t) s = writeMopCfg t i v (s.setTriscProgram t rest) :=
  coreStep_trisc_of_performTrisc hp (performAccess_storeRegister t i v _)

/-! The statements. -/

/-- Settles O34: the store is `writeMopCfg` on the issuing core's own thread, and no access of a TRISC completes with
another thread changed. -/
theorem windowStoreReachesOwnThread : Obligations.WindowStoreReachesOwnThread := by
  refine ⟨fun s t i v rest hp hb => ?_, fun s s' t addr width v _ _ h => sameThreadsBut_of_triscAccess h⟩
  have hstep : coreStep (.trisc t) s =
      .next ((s.setTriscProgram t rest).setThread t ((s.thread t).setMopCfg i v)) := by
    rw [coreStep_storeRegister hp, writeMopCfg_next]
    simp [hb]
  refine ⟨_, hstep, ?_, fun u hu => ?_, ?_, coreFrame_setTriscProgram_setThread s t t rest _⟩
  · exact State.thread_setThread_same _ _ _
  · simp [hu]
  · simp

/-- Settles O36: an address in the bounds is in the window, and a load in the window is a fault. -/
theorem loadFromMopCfgFaults : Obligations.LoadFromMopCfgFaults :=
  fun s c _ width hlo hhi => performAccess_loadWindow (inMopCfgWindow_iff.2 ⟨hlo, hhi⟩) c width s

end Sys2Proof.Machine
end

section
/-! The words of the encoding (spec/30_encoding.md R85, R87, R88, R100): the `.ttinsn` rotation bit by bit, and the
operands that MOP and REPLAY words carry. -/

namespace Sys2Proof

/-! The rotation. -/

/-- `rotl32(w, 2)`: each bit moves up by 2, around the word. -/
theorem ttinsnEncode_getLsbD (w : Word) {k : Nat} (hk : k < 32) :
    (ttinsnEncode w).getLsbD k = w.getLsbD ((k + 30) % 32) := by
  change (w.rotateLeft 2).getLsbD k = _
  rw [BitVec.getLsbD_rotateLeft]
  by_cases h : k < 2
  · simp [h, show (k + 30) % 32 = 30 + k by omega]
  · simp [h, hk, show (k + 30) % 32 = k - 2 by omega]

/-- `rotr32(e, 2)`: each bit moves down by 2, around the word. -/
theorem ttinsnDecode_getLsbD (e : Word) {k : Nat} (hk : k < 32) :
    (ttinsnDecode e).getLsbD k = e.getLsbD ((k + 2) % 32) := by
  change (e.rotateRight 2).getLsbD k = _
  rw [BitVec.getLsbD_rotateRight]
  by_cases h : k < 30
  · simp [h, show (k + 2) % 32 = 2 + k by omega]
  · simp [h, hk, show (k + 2) % 32 = k - 30 by omega]

@[simp] theorem ttinsnDecode_ttinsnEncode (w : Word) : ttinsnDecode (ttinsnEncode w) = w := by
  refine BitVec.eq_of_getLsbD_eq fun k hk => ?_
  rw [ttinsnDecode_getLsbD _ hk, ttinsnEncode_getLsbD _ (by omega), show ((k + 2) % 32 + 30) % 32 = k by omega]

@[simp] theorem ttinsnEncode_ttinsnDecode (e : Word) : ttinsnEncode (ttinsnDecode e) = e := by
  refine BitVec.eq_of_getLsbD_eq fun k hk => ?_
  rw [ttinsnEncode_getLsbD _ hk, ttinsnDecode_getLsbD _ (by omega), show ((k + 30) % 32 + 2) % 32 = k by omega]

/-! The fields of the words. -/

theorem decode_of_opcodeOf_mop {w : Word} (h : opcodeOf w = 0x01#8) : decode w = decodeMop w := if_pos h

theorem decode_of_opcodeOf_replay {w : Word} (h : opcodeOf w = 0x04#8) : decode w = decodeReplay w := by
  simp [decode, h]

theorem templateOfBit_eq_doubleLoop_iff (b : Bool) : templateOfBit b = .doubleLoop ↔ b = true := by
  cases b <;> simp [templateOfBit]

/-- The low bits of a field are the narrower field at the same place. -/
theorem extractLsb'_toNat_mod (w : Word) (lo : Nat) {k n : Nat} (h : k ≤ n) :
    (w.extractLsb' lo n).toNat % 2 ^ k = (w.extractLsb' lo k).toNat := by
  rw [BitVec.extractLsb'_toNat, BitVec.extractLsb'_toNat, Nat.mod_mod_of_dvd _ (Nat.pow_dvd_pow 2 h)]

end Sys2Proof

namespace Sys2Proof.Machine

/-- A `.ttinsn` word in the instruction stream is a push of the un-rotated word (R100). -/
theorem performTrisc_ttinsn (t : ThreadId) (e : Word) (s : State) :
    performTrisc t (.ttinsn e) s = performTrisc t (.push (ttinsnDecode e)) s := rfl

/-! MOP's operands. -/

theorem template0Iterations_pos (c : BitVec 7) : 1 ≤ template0Iterations c := Nat.le_add_left 1 c.toNat

theorem template0Iterations_le (c : BitVec 7) : template0Iterations c ≤ 128 := c.isLt

/-- MaskLo is the lower half of the mask, MaskHi the upper (R85). -/
theorem zeroMask_getLsbD (h m : BitVec 16) (k : Nat) :
    (zeroMask h m).getLsbD k = if k < 16 then m.getLsbD k else h.getLsbD (k - 16) := by
  simp only [zeroMask, BitVec.getLsbD_or, BitVec.getLsbD_shiftLeft, BitVec.getLsbD_setWidth]
  by_cases hlo : k < 16
  · simp [hlo, show k < 32 by omega]
  · have hm : m.getLsbD k = false := BitVec.getLsbD_of_ge m k (Nat.le_of_not_lt hlo)
    by_cases hhi : k < 32
    · simp [hlo, hhi, hm, show k - 16 < 32 by omega]
    · simp [hlo, hhi, BitVec.getLsbD_of_ge h (k - 16) (by omega)]

/-! REPLAY's operands. -/

/-- Bits 23:19 of the word, the upper half of start_idx, have no effect on Index (R87). -/
theorem replayIndex_extractLsb' (w : Word) :
    (replayIndex (w.extractLsb' 14 10)).val = (w.extractLsb' 14 5).toNat :=
  extractLsb'_toNat_mod w 14 (k := 5) (by decide)

theorem replaySlot_replayIndex_val (a : BitVec 10) (i : Nat) :
    (replaySlot (replayIndex a) i).val = (a.toNat + i) % 32 := Nat.mod_add_mod a.toNat 32 i

/-- Bits 13:10 of the word, the upper bits of len, have no effect on the number of words (R88). -/
theorem replayCount_extractLsb' (w : Word) : replayCount (w.extractLsb' 4 10) =
    if w.extractLsb' 4 6 = 0 then 64 else (w.extractLsb' 4 6).toNat := by
  have hlow : (w.extractLsb' 4 10).toNat % 64 = (w.extractLsb' 4 6).toNat :=
    extractLsb'_toNat_mod w 4 (k := 6) (by decide)
  rw [replayCount, hlow]
  simp [BitVec.toNat_eq]

/-! The statements. -/

/-- Settles O4: both directions are read off bit by bit, and the un-rotation is part of the action. -/
theorem ttinsnIsRotationByTwo : Obligations.TtinsnIsRotationByTwo := by
  refine ⟨fun _ => rfl, fun _ => rfl, ttinsnDecode_ttinsnEncode, ttinsnEncode_ttinsnDecode,
    fun w => ⟨ttinsnEncode_getLsbD w (by decide), ttinsnEncode_getLsbD w (by decide), fun k hk => ?_⟩,
    performTrisc_ttinsn⟩
  rw [ttinsnEncode_getLsbD w (by omega), show (k + 2 + 30) % 32 = k by omega]

/-- Settles O7: the decoder's fields of a MOP and of a REPLAY word, and what the units compute from each. -/
theorem operandsOfTheWord : Obligations.OperandsOfTheWord := by
  refine ⟨fun w hw => ⟨_, _, _, decode_of_opcodeOf_mop hw, templateOfBit_eq_doubleLoop_iff _, rfl, rfl, rfl,
      template0Iterations_pos _, template0Iterations_le _, fun h k => ?_, fun _ _ => rfl, fun _ _ => rfl⟩,
    fun w hw => ⟨_, _, _, _, _, decode_of_opcodeOf_replay hw, replayIndex_extractLsb' w,
      replaySlot_replayIndex_val _, replayCount_extractLsb' w, replayCount_pos _, replayCount_le _⟩,
    by decide⟩
  rw [zeroMask_getLsbD]
  by_cases hk : k < 16 <;> simp [hk]

end Sys2Proof.Machine
end

section
/-! Template 1 where the inner loop is empty, with the hardware bug, and what a Template 1 MOP depends on and changes
(spec/40_mop.md R136, R139, R143, R144). -/

namespace Sys2Proof.Machine

open Sys2Proof.Safety

/-! The counts. -/

/-- A loop count is the register modulo 128 (R135, R143). -/
theorem loopCount_eq_mod (w : Word) : loopCount w = w.toNat % 128 := by
  rw [loopCount, BitVec.toNat_and]
  exact Nat.and_two_pow_sub_one_eq_mod w.toNat 7

/-- Doubling for LoopOp1 does not change whether the inner loop is empty (R138). -/
theorem innerCount_eq_zero_iff (cfg : MopCfg) : innerCount cfg = 0 ↔ cfg[1].toNat % 128 = 0 := by
  rw [innerCount, loopCount_eq_mod]
  split <;> omega

/-- The hardware bug makes one outer iteration into 129 (R139). -/
theorem outerCount_of_bug {cfg : MopCfg} (hoc : cfg[0].toNat % 128 = 1) (hic : cfg[1].toNat % 128 = 0)
    (hstart : isNop cfg[2] = true) (hend : isNop cfg[3] = false) : outerCount cfg = 129 := by
  rw [outerCount, loopCount_eq_mod, hoc, if_pos ⟨rfl, hstart, (innerCount_eq_zero_iff cfg).2 hic, hend⟩]

/-- Outside the hardware bug the outer loop runs as often as MopCfg[0] says (R139). -/
theorem outerCount_of_not_bug {cfg : MopCfg}
    (h : ¬ (cfg[0].toNat % 128 = 1 ∧ cfg[1].toNat % 128 = 0 ∧ isNop cfg[2] = true ∧ isNop cfg[3] = false)) :
    outerCount cfg = cfg[0].toNat % 128 := by
  rw [outerCount, loopCount_eq_mod, if_neg]
  exact fun ⟨hoc, hstart, hic, hend⟩ => h ⟨hoc, (innerCount_eq_zero_iff cfg).1 hic, hstart, hend⟩

/-! The framing words (R141). -/

theorem startWords_of_nop {cfg : MopCfg} (h : isNop cfg[2] = true) : startWords cfg = [] := by
  simp [startWords, h]

theorem startWords_of_not_nop {cfg : MopCfg} (h : isNop cfg[2] = false) : startWords cfg = [cfg[2]] := by
  simp [startWords, h]

theorem endWords_of_nop {cfg : MopCfg} (h : isNop cfg[3] = true) : endWords cfg = [] := by
  simp [endWords, h]

theorem endWords_of_not_nop {cfg : MopCfg} (h : isNop cfg[3] = false) :
    endWords cfg = if isNop cfg[4] then [cfg[3]] else [cfg[3], cfg[4]] := by
  cases h4 : isNop cfg[4] <;> simp [endWords, h, h4]

/-! The expansion with an empty inner loop (R143). -/

theorem outerLoop_of_innerCount_zero {cfg : MopCfg} (h : innerCount cfg = 0) (n : Nat) (loopOp : Word) :
    outerLoop cfg n loopOp = (List.replicate n (startWords cfg ++ endWords cfg)).flatten := by
  induction n with
  | zero => rfl
  | succ r ih => simp [outerLoop, innerLoop, h, ih, List.replicate_succ]

theorem expandTemplate1_of_innerCount_zero {cfg : MopCfg} (hic : cfg[1].toNat % 128 = 0) :
    expandTemplate1 cfg = (List.replicate (outerCount cfg) (startWords cfg ++ endWords cfg)).flatten :=
  outerLoop_of_innerCount_zero ((innerCount_eq_zero_iff cfg).2 hic) _ _

/-- One outer iteration that the bug does not touch, with no inner loop: its framing words. -/
theorem expandTemplate1_of_single_framing {cfg : MopCfg} (hoc : cfg[0].toNat % 128 = 1)
    (hic : cfg[1].toNat % 128 = 0) (h : ¬ (isNop cfg[2] = true ∧ isNop cfg[3] = false)) :
    expandTemplate1 cfg = startWords cfg ++ endWords cfg := by
  have hcount : outerCount cfg = 1 := by
    rw [outerCount_of_not_bug fun hbug => h hbug.2.2, hoc]
  simp [expandTemplate1_of_innerCount_zero hic, hcount]

/-! A Template 1 MOP at the MOP Expander (R144). -/

theorem unitFrame_setThread (s : State) (t : ThreadId) (th : ThreadState) : unitFrame t s (s.setThread t th) :=
  ⟨fun t' h => State.thread_setThread_ne s t t' th h, fun t' => State.setThread_trisc s t t' th,
    State.setThread_brisc s t th, by simp [sameControl]⟩

/-- What waits after a Template 1 MOP is a function of MopCfg alone. -/
theorem exec_mop_doubleLoop {s : State} {t : ThreadId} (hsite : s.site = ⟨t, .mopExpander⟩) (c : BitVec 7)
    (m : BitVec 16) : exec (.mop .doubleLoop c m) s =
      .next (s.setThread t ((s.thread t).startExpansion (expandTemplate1 (s.thread t).mopCfg))) := by
  simp [exec, execMop, expandMop, hsite]

/-! The statements. -/

/-- Settles O16: with an empty inner loop the expansion is the framing words, as often as the outer count says, and
only the bug changes that count. -/
theorem template1HardwareBug : Obligations.Template1HardwareBug := by
  intro cfg
  refine ⟨fun hoc hic => ⟨fun hstart hend => ?_, fun hstart hend => ?_, fun hstart hend => ?_⟩,
    outerCount_of_not_bug⟩
  · have hwords := expandTemplate1_of_innerCount_zero hic
    rw [outerCount_of_bug hoc hic hstart hend, startWords_of_nop hstart, endWords_of_not_nop hend,
      List.nil_append] at hwords
    refine ⟨hwords, ?_⟩
    rw [hwords, List.length_flatten, List.map_replicate, List.sum_replicate]
    cases isNop cfg[4] <;> rfl
  · rw [expandTemplate1_of_single_framing hoc hic (by simp [hend]), startWords_of_nop hstart,
      endWords_of_nop hend, List.nil_append]
  · rw [expandTemplate1_of_single_framing hoc hic (by simp [hstart]), startWords_of_not_nop hstart,
      endWords_of_not_nop hend, List.singleton_append]

/-- Settles O18: either MOP puts the expansion of the same MopCfg in the thread's pending words and touches nothing
else. -/
theorem template1IgnoresTheWordFields : Obligations.Template1IgnoresTheWordFields := by
  intro s t c c' m m' h hsite
  refine ⟨_, _, exec_mop_doubleLoop hsite c m, exec_mop_doubleLoop (by simpa using hsite) c' m', ?_⟩
  refine ⟨by simp, by simp, ?_, by simp, by simp, unitFrame_setThread s t _⟩
  simp [ThreadState.startExpansion]

end Sys2Proof.Machine
end

section
/-! A REPLAY at the Replay Expander of a thread that is not recording (spec/41_replay.md R161, R163). -/

namespace Sys2Proof.Machine

/-! The interpretation of the word. -/

/-- Outside a recording the Replay Expander interprets a REPLAY; only a recording would capture it (R165). -/
theorem exec_replay_of_not_recording {s : State} {t : ThreadId} (hsite : s.site = ⟨t, .replayExpander⟩)
    (hrec : (s.thread t).recording = none) (a b : BitVec 10) (u : BitVec 2) (e l : Bool) :
    exec (.replay a b u e l) s = interpretReplay t a b e l s := by
  simp [exec, execReplay, hsite, captureOr_none, hrec]

/-- A record-mode REPLAY changes the thread's recording and nothing else (R163). -/
theorem exec_replay_record {s : State} {t : ThreadId} (hsite : s.site = ⟨t, .replayExpander⟩)
    (hrec : (s.thread t).recording = none) (a b : BitVec 10) (u : BitVec 2) (e : Bool) :
    exec (.replay a b u e true) s =
      .next (s.setThread t ((s.thread t).startRecording (replayIndex a) (replayCount b) e)) :=
  exec_replay_of_not_recording hsite hrec a b u e true

/-! The statement. -/

/-- Settles O20: the next state is the old one with the thread's recording started; the example is one decoded word. -/
theorem recordModeEntersRecording : Obligations.RecordModeEntersRecording := by
  refine ⟨fun s t a b u e hsite hrec => ⟨_, exec_replay_record hsite hrec a b u e, ?_, unitFrame_setThread s t _⟩,
    fun s t hsite hrec => ?_⟩
  · rw [State.thread_setThread_same]
    rfl
  · have hword : decode 0x04040101 = .replay 16 16 0 false true := by decide
    rw [hword]
    refine ⟨_, exec_replay_record hsite hrec 16 16 0 false, ?_⟩
    rw [State.thread_setThread_same, ThreadState.startRecording_recording]
    rfl

end Sys2Proof.Machine
end

section
/-! Decoding and encoding are inverse to each other (spec/30_encoding.md R80 to R84, R91, R92): a field is read back
from where it was put, and neighbouring fields of a word put together are one wider field of it. -/

namespace Sys2Proof

/-! Fields of a word. -/

/-- A field is read back from its place. -/
@[simp] theorem extractLsb'_fieldAt_same {n lo : Nat} (field : BitVec n) (h : lo + n ≤ 32) :
    (fieldAt field lo).extractLsb' lo n = field := by
  refine BitVec.eq_of_getLsbD_eq fun k hk => ?_
  rw [BitVec.getLsbD_extractLsb', fieldAt_getLsbD _ _ _ (by omega)]
  simp [hk]

/-- A field has no bits where another one is read. -/
@[simp] theorem extractLsb'_fieldAt_apart {n m lo lo' : Nat} (field : BitVec m) (hn : lo + n ≤ 32)
    (h : lo' + m ≤ lo ∨ lo + n ≤ lo') : (fieldAt field lo').extractLsb' lo n = 0#n := by
  refine BitVec.eq_of_getLsbD_eq fun k hk => ?_
  rw [BitVec.getLsbD_extractLsb', fieldAt_getLsbD _ _ _ (by omega)]
  obtain hbelow | habove := h
  · simp [BitVec.getLsbD_of_ge field (lo + k - lo') (by omega)]
  · simp [show ¬ lo' ≤ lo + k by omega]

/-- Two neighbouring fields of a word are one wider field. -/
theorem fieldAt_or_fieldAt (w : Word) {lo hi m n k : Nat} (hhi : hi = lo + m) (hk : k = m + n) :
    fieldAt (w.extractLsb' hi n) hi ||| fieldAt (w.extractLsb' lo m) lo = fieldAt (w.extractLsb' lo k) lo := by
  subst hhi hk
  refine BitVec.eq_of_getLsbD_eq fun j hj => ?_
  simp only [BitVec.getLsbD_or, fieldAt_getLsbD _ _ _ hj, BitVec.getLsbD_extractLsb']
  by_cases hlo : lo ≤ j
  · by_cases hmid : lo + m ≤ j
    · simp [hlo, hmid, show lo + m + (j - (lo + m)) = lo + (j - lo) by omega, show ¬ j - lo < m by omega,
        show j - (lo + m) < n ↔ j - lo < m + n by omega]
    · simp [hlo, hmid, show j - lo < m by omega, show j - lo < m + n by omega]
  · simp [hlo, show ¬ lo + m ≤ j by omega]

/-- A word is its widest field. -/
theorem fieldAt_extractLsb'_all (w : Word) : fieldAt (w.extractLsb' 0 32) 0 = w := by
  simp [fieldAt]

/-- A field of one bit. -/
theorem ofBool_getLsbD (w : Word) (k : Nat) : BitVec.ofBool (w.getLsbD k) = w.extractLsb' k 1 := by
  ext j hj
  simp [show j = 0 by omega]

theorem getLsbD_of_extractLsb' {w : Word} {k : Nat} {b : Bool} (h : w.extractLsb' k 1 = BitVec.ofBool b) :
    w.getLsbD k = b := by
  rw [← ofBool_getLsbD] at h
  exact BitVec.ofBool_eq_iff_eq.1 h

/-! Decoding what was encoded, row by row. -/

theorem decodeMop_encode (template : Template) (count1 : BitVec 7) (maskLo : BitVec 16) :
    decodeMop (encode (.mop template count1 maskLo)) = .mop template count1 maskLo := by
  have htemplate : (encode (.mop template count1 maskLo)).getLsbD 23 = templateBit template :=
    getLsbD_of_extractLsb' (by simp [encode, BitVec.extractLsb'_or])
  rw [decodeMop, htemplate, templateOfBit_templateBit]
  simp [encode, BitVec.extractLsb'_or]

theorem decodeMopCfg_encode (reserved : BitVec 8) (maskHi : BitVec 16) :
    decodeMopCfg (encode (.mopCfg reserved maskHi)) = .mopCfg reserved maskHi := by
  simp [decodeMopCfg, encode, BitVec.extractLsb'_or]

theorem decodeReplay_encode (a b : BitVec 10) (u : BitVec 2) (e l : Bool) :
    decodeReplay (encode (.replay a b u e l)) = .replay a b u e l := by
  have hexec : (encode (.replay a b u e l)).getLsbD 1 = e :=
    getLsbD_of_extractLsb' (by simp [encode, BitVec.extractLsb'_or])
  have hload : (encode (.replay a b u e l)).getLsbD 0 = l :=
    getLsbD_of_extractLsb' (by simp [encode, BitVec.extractLsb'_or])
  rw [decodeReplay, hexec, hload]
  simp [encode, BitVec.extractLsb'_or]

theorem payloadOf_opcodeAndPayload (opcode : BitVec 8) (payload : BitVec 24) :
    payloadOf (fieldAt opcode 24 ||| fieldAt payload 0) = payload := by
  simp [payloadOf, BitVec.extractLsb'_or]

/-- A well-formed instruction is read back from its word. -/
theorem decode_encode {i : Instr} (hwf : i.WellFormed) : decode (encode i) = i := by
  have hop := opcodeOf_encode i
  cases i with
  | mop template count1 maskLo => rw [decode_of_opcodeOf_mop hop, decodeMop_encode]
  | mopCfg reserved maskHi => simp [decode, hop, opcodeByte, decodeMopCfg_encode]
  | replay a b u e l => rw [decode_of_opcodeOf_replay hop, decodeReplay_encode]
  | nop payload =>
    rw [decode, hop]
    exact congrArg Instr.nop (payloadOf_opcodeAndPayload 0x02 payload)
  | resourcedecl payload =>
    rw [decode, hop]
    exact congrArg Instr.resourcedecl (payloadOf_opcodeAndPayload 0x05 payload)
  | dmanop payload =>
    rw [decode, hop]
    exact congrArg Instr.dmanop (payloadOf_opcodeAndPayload 0x60 payload)
  | sfpnop payload =>
    rw [decode, hop]
    exact congrArg Instr.sfpnop (payloadOf_opcodeAndPayload 0x8F payload)
  | other opcode payload =>
    have hother : opcode ∉ namedOpcodes := by simpa [Instr.WellFormed, Instr.wf] using hwf
    simp only [namedOpcodes, List.mem_cons, List.not_mem_nil, or_false, not_or, BitVec.ofNat_eq_ofNat] at hother
    obtain ⟨h01, h02, h03, h04, h05, h60, h8F⟩ := hother
    rw [decode, hop, opcodeByte, if_neg h01, if_neg h02, if_neg h03, if_neg h04, if_neg h05, if_neg h60, if_neg h8F]
    exact congrArg (Instr.other opcode) (payloadOf_opcodeAndPayload opcode payload)

/-! Encoding what was decoded. -/

/-- The fields of a MOP word are all its bits (R81). -/
theorem encode_decodeMop {w : Word} (h : opcodeOf w = 0x01#8) : encode (decodeMop w) = w := by
  rw [decodeMop, encode, templateBit_templateOfBit, ← h, opcodeOf, ofBool_getLsbD,
    fieldAt_or_fieldAt w (hi := 24) (lo := 23) (m := 1) (n := 8) rfl rfl,
    fieldAt_or_fieldAt w (hi := 23) (lo := 16) (m := 7) (n := 9) rfl rfl,
    fieldAt_or_fieldAt w (hi := 16) (lo := 0) (m := 16) (n := 16) rfl rfl, fieldAt_extractLsb'_all]

/-- The fields of a MOP_CFG word are all its bits (R82). -/
theorem encode_decodeMopCfg {w : Word} (h : opcodeOf w = 0x03#8) : encode (decodeMopCfg w) = w := by
  rw [decodeMopCfg, encode, ← h, opcodeOf, fieldAt_or_fieldAt w (hi := 24) (lo := 16) (m := 8) (n := 8) rfl rfl,
    fieldAt_or_fieldAt w (hi := 16) (lo := 0) (m := 16) (n := 16) rfl rfl, fieldAt_extractLsb'_all]

/-- The fields of a REPLAY word are all its bits (R83). -/
theorem encode_decodeReplay {w : Word} (h : opcodeOf w = 0x04#8) : encode (decodeReplay w) = w := by
  rw [decodeReplay, encode, ← h, opcodeOf, ofBool_getLsbD, ofBool_getLsbD,
    fieldAt_or_fieldAt w (hi := 24) (lo := 14) (m := 10) (n := 8) rfl rfl,
    fieldAt_or_fieldAt w (hi := 14) (lo := 4) (m := 10) (n := 18) rfl rfl,
    fieldAt_or_fieldAt w (hi := 4) (lo := 2) (m := 2) (n := 28) rfl rfl,
    fieldAt_or_fieldAt w (hi := 2) (lo := 1) (m := 1) (n := 30) rfl rfl,
    fieldAt_or_fieldAt w (hi := 1) (lo := 0) (m := 1) (n := 31) rfl rfl, fieldAt_extractLsb'_all]

/-- The opcode byte and the 24 bits below it are all bits of a word (R84). -/
theorem fieldAt_opcode_or_payload {w : Word} {opcode : BitVec 8} (h : opcodeOf w = opcode) :
    fieldAt opcode 24 ||| fieldAt (payloadOf w) 0 = w := by
  rw [← h, opcodeOf, payloadOf, fieldAt_or_fieldAt w (hi := 24) (lo := 0) (m := 24) (n := 8) rfl rfl,
    fieldAt_extractLsb'_all]

/-- Every word stands for an instruction whose word it is. -/
@[simp] theorem encode_decode (w : Word) : encode (decode w) = w := by
  unfold decode
  split_ifs with h01 h02 h03 h04 h05 h60 h8F
  · exact encode_decodeMop h01
  · exact fieldAt_opcode_or_payload h02
  · exact encode_decodeMopCfg h03
  · exact encode_decodeReplay h04
  · exact fieldAt_opcode_or_payload h05
  · exact fieldAt_opcode_or_payload h60
  · exact fieldAt_opcode_or_payload h8F
  · exact fieldAt_opcode_or_payload rfl

/-- OTHER is read only from a word whose opcode byte no other row has (R91). -/
theorem decode_wellFormed (w : Word) : (decode w).WellFormed := by
  unfold decode
  split_ifs with h01 h02 h03 h04 h05 h60 h8F
  case neg => simp [Instr.WellFormed, Instr.wf, namedOpcodes, h01, h02, h03, h04, h05, h60, h8F]
  all_goals rfl

/-! The statements. -/

/-- Settles O1: the opcode byte leads back to the row, and each row's fields are read back from where they were put. -/
theorem decodeOfEncodeIsIdentity : Obligations.DecodeOfEncodeIsIdentity := fun _ hwf => decode_encode hwf

/-- Settles O2: the fields of the row a word is read as are all its bits. -/
theorem encodeOfDecodeIsIdentity : Obligations.EncodeOfDecodeIsIdentity :=
  fun w => ⟨decode_wellFormed w, encode_decode w⟩

end Sys2Proof
end

section
/-! Words as software writes them: sample words, the C functions that build words by addition, the assembler lines
(spec/30_encoding.md R80 to R83, R101 to R110), and the test for a NOP (spec/40_mop.md R123). -/

namespace Sys2Proof

/-! Fields put side by side by addition (R80). -/

/-- Placing a field where a word has no bits is adding it. -/
theorem or_fieldAt_eq_add {n lo : Nat} {x : Word} (field : BitVec n) (hx : x.extractLsb' lo n = 0#n) :
    x ||| fieldAt field lo = x + fieldAt field lo := by
  refine (BitVec.add_eq_or_of_and_eq_zero _ _ (BitVec.eq_of_getLsbD_eq fun k hk => ?_)).symm
  rw [BitVec.getLsbD_and, fieldAt_getLsbD _ _ _ hk]
  by_cases hlo : lo ≤ k
  · by_cases hn : k - lo < n
    · have hbit := congrArg (fun f => f.getLsbD (k - lo)) hx
      simp [hn, show lo + (k - lo) = k by omega] at hbit
      simp [hbit]
    · simp [BitVec.getLsbD_of_ge field (k - lo) (by omega)]
  · simp [hlo]

/-- The word of a MOP is the sum of its fields. -/
theorem encode_mop_eq_sum (template : Template) (count1 : BitVec 7) (maskLo : BitVec 16) :
    encode (.mop template count1 maskLo) =
      fieldAt 0x01#8 24 + fieldAt (BitVec.ofBool (templateBit template)) 23 + fieldAt count1 16 + fieldAt maskLo 0 := by
  rw [encode, or_fieldAt_eq_add, or_fieldAt_eq_add, or_fieldAt_eq_add] <;>
    simp [BitVec.extractLsb'_or]

theorem encode_mopCfg_eq_sum (maskHi : BitVec 16) :
    encode (.mopCfg 0 maskHi) = fieldAt 0x03#8 24 + fieldAt maskHi 0 := by
  have hzero : fieldAt (0 : BitVec 8) 16 = 0#32 := by decide
  rw [encode, hzero, BitVec.or_zero, or_fieldAt_eq_add]
  simp

theorem encode_replay_eq_sum (a b : BitVec 10) (e l : Bool) :
    encode (.replay a b 0 e l) = fieldAt 0x04#8 24 + fieldAt a 14 + fieldAt b 4 + fieldAt (BitVec.ofBool e) 1 +
      fieldAt (BitVec.ofBool l) 0 := by
  have hzero : fieldAt (0 : BitVec 2) 2 = 0#32 := by decide
  rw [encode, hzero, BitVec.or_zero, or_fieldAt_eq_add, or_fieldAt_eq_add, or_fieldAt_eq_add, or_fieldAt_eq_add] <;>
    simp [BitVec.extractLsb'_or]

end Sys2Proof

namespace Sys2Proof.Machine

theorem boolWord_shiftLeft (b : Bool) (lo : Nat) : boolWord b <<< lo = fieldAt (BitVec.ofBool b) lo := by
  cases b <;> rfl

/-! The C functions are sums of multiples, so what an argument has beyond its field carries (R105). -/

/-- Moving a word up is multiplying it by a power of two. -/
theorem shiftLeft_eq_mul_of_twoPow {x p : Word} {k : Nat} (hp : BitVec.twoPow 32 k = p) : x <<< k = x * p := by
  rw [← hp, BitVec.shiftLeft_eq_mul_twoPow]

theorem ttOpMop_eq_sum (t c m : Word) : ttOpMop t c m = 0x01000000 + (t * 0x00800000 + c * 0x00010000 + m) := by
  rw [ttOpMop, ttOp, shiftLeft_eq_mul_of_twoPow (k := 23) (p := 0x00800000) (by decide),
    shiftLeft_eq_mul_of_twoPow (k := 16) (p := 0x00010000) (by decide), BitVec.shiftLeft_zero]
  rfl

theorem ttOpReplay_eq_sum (a b e l : Word) :
    ttOpReplay a b e l = 0x04000000 + (a * 0x00004000 + b * 0x00000010 + e * 0x00000002 + l) := by
  rw [ttOpReplay, ttOp, shiftLeft_eq_mul_of_twoPow (k := 14) (p := 0x00004000) (by decide),
    shiftLeft_eq_mul_of_twoPow (k := 4) (p := 0x00000010) (by decide),
    shiftLeft_eq_mul_of_twoPow (k := 1) (p := 0x00000002) (by decide), BitVec.shiftLeft_zero]
  rfl

theorem ttOpMopCfg_eq_sum (h : Word) : ttOpMopCfg h = 0x03000000 + h := by
  rw [ttOpMopCfg, ttOp, BitVec.shiftLeft_zero]
  rfl

/-! Arguments that fit their fields give the instruction's word. -/

theorem ttOpMop_of_fields (template : Template) (count1 : BitVec 7) (maskLo : BitVec 16) :
    ttOpMop (boolWord (templateBit template)) (count1.setWidth 32) (maskLo.setWidth 32) =
      encode (.mop template count1 maskLo) := by
  rw [encode_mop_eq_sum, ttOpMop, ttOp, boolWord_shiftLeft, ← add_assoc, ← add_assoc]
  rfl

theorem ttOpReplay_of_fields (a b : BitVec 10) (e l : Bool) :
    ttOpReplay (a.setWidth 32) (b.setWidth 32) (boolWord e) (boolWord l) = encode (.replay a b 0 e l) := by
  rw [encode_replay_eq_sum, ttOpReplay, ttOp, boolWord_shiftLeft, boolWord_shiftLeft, ← add_assoc, ← add_assoc,
    ← add_assoc]
  rfl

/-- The word of a playback is the wrapper's, which puts the two fields side by side (R110). -/
theorem llttReplayInsn_of_fields (a b : BitVec 10) :
    llttReplayInsn (a.setWidth 32) (b.setWidth 32) = encode (.replay a b 0 false false) := by
  have hunlisted : fieldAt (0 : BitVec 2) 2 = 0#32 := by decide
  have hexec : fieldAt (BitVec.ofBool false) 1 = 0#32 := by decide
  have hload : fieldAt (BitVec.ofBool false) 0 = 0#32 := by decide
  rw [encode, hunlisted, hexec, hload]
  simp only [BitVec.or_zero]
  rfl

/-! The NOP test (spec/40_mop.md R123). -/

theorem isNop_iff_shift (w : Word) : isNop w = true ↔ w >>> 24 = 0x02 := by
  have hlt := w.isLt
  simp only [isNop, beq_iff_eq, BitVec.toNat_eq, opcodeOf, BitVec.extractLsb'_toNat, BitVec.toNat_ushiftRight]
  rw [Nat.mod_eq_of_lt (by rw [Nat.shiftRight_eq_div_pow]; omega)]
  rfl

/-! The statements. -/

/-- Settles O3: each word, decoded. -/
theorem sampleWordsDecode : Obligations.SampleWordsDecode := by
  unfold Obligations.SampleWordsDecode
  decide

/-- Settles O5: the words are sums of the arguments' multiples, which fitting arguments keep apart and the others
carry between. -/
theorem macrosBuildInstructionWords : Obligations.MacrosBuildInstructionWords := by
  refine ⟨ttOpMop_of_fields, fun h => ?_, ttOpReplay_of_fields, llttReplayInsn_of_fields, by decide,
    fun t c m => ?_, fun k h => ?_, fun a b e l => ?_⟩
  · rw [encode_mopCfg_eq_sum]
    rfl
  · simp only [ttOpMop_eq_sum]
    exact ⟨by ring, by ring, by ring⟩
  · simp only [ttOpMopCfg_eq_sum]
    ring
  · simp only [ttOpReplay_eq_sum]
    exact ⟨by ring, by ring, by ring, by ring⟩

/-- Settles O6: each line, parsed. -/
theorem assemblerReadsTheSourceLines : Obligations.AssemblerReadsTheSourceLines := by
  unfold Obligations.AssemblerReadsTheSourceLines
  decide

/-- Settles O8: the test is on the byte above bit 24, and the opcode bytes of DMANOP and SFPNOP are their own. -/
theorem isNopTestsTheOpcodeByte : Obligations.IsNopTestsTheOpcodeByte := by
  refine ⟨isNop_iff_shift, fun p => ?_⟩
  simp [isNop, opcodeOf_encode, opcodeByte]

end Sys2Proof.Machine
end

section
/-! The two templates in closed form, and the lengths of their expansions (spec/40_mop.md R126 to R130, R136 to
R147). -/

namespace Sys2Proof.Machine

/-! Template 0. -/

/-- Iteration i looks at bit i of the mask (R126). -/
theorem expandTemplate0_eq_flatMap (cfg : MopCfg) (n : Nat) (mask : Word) :
    expandTemplate0 cfg n mask = (List.range n).flatMap fun i => template0Iteration cfg (mask.getLsbD i) := by
  induction n generalizing mask with
  | zero => rfl
  | succ n ih =>
    rw [expandTemplate0, ih, List.range_succ_eq_map, List.flatMap_cons, List.flatMap_map]
    simp [BitVec.getLsbD_ushiftRight, Nat.add_comm]

/-- The words of an iteration, whichever its mask bit (R130). -/
theorem template0Iteration_length (cfg : MopCfg) (maskBit : Bool) :
    (template0Iteration cfg maskBit).length =
      if maskBit then 1 + (cfg[1].getLsbD 0).toNat
      else 1 + 3 * (cfg[1].getLsbD 1).toNat + (cfg[1].getLsbD 0).toNat := by
  rw [template0Iteration, hasB, hasA123]
  cases maskBit <;> cases cfg[1].getLsbD 0 <;> cases cfg[1].getLsbD 1 <;> rfl

/-- A list mapped to words of one length where a test holds and of another where it does not. -/
theorem length_flatMap_of_two_lengths {α β : Type} (f : α → List β) (p : α → Bool) (a b : Nat)
    (hf : ∀ x, (f x).length = if p x then b else a) (l : List α) :
    (l.flatMap f).length =
      (l.filter fun x => !p x).length * a + (l.length - (l.filter fun x => !p x).length) * b := by
  induction l with
  | nil => simp
  | cons x l ih =>
    have hle : (l.filter fun x => !p x).length ≤ l.length := List.length_filter_le _ _
    rw [List.flatMap_cons, List.length_append, ih, hf]
    cases hp : p x
    · simp [hp, Nat.add_mul, Nat.add_assoc, Nat.add_left_comm]
    · simp [hp, Nat.succ_sub hle, Nat.add_mul, Nat.add_comm, Nat.add_left_comm]

/-- The shortest iteration, with no flag set. -/
theorem template0Iteration_length_of_no_flags {cfg : MopCfg} (hb : cfg[1].getLsbD 0 = false)
    (ha : cfg[1].getLsbD 1 = false) (maskBit : Bool) : (template0Iteration cfg maskBit).length = 1 := by
  rw [template0Iteration_length, hb, ha]
  cases maskBit <;> rfl

/-- The longest iteration, with both flags set and a mask bit of 0. -/
theorem template0Iteration_length_of_both_flags {cfg : MopCfg} (hb : cfg[1].getLsbD 0 = true)
    (ha : cfg[1].getLsbD 1 = true) : (template0Iteration cfg false).length = 5 := by
  rw [template0Iteration_length, hb, ha]
  rfl

theorem decide_lt_and_getLsbD (w : Word) (i : Nat) : (decide (i < 32) && w.getLsbD i) = w.getLsbD i := by
  by_cases h : i < 32
  · simp [h]
  · simp [BitVec.getLsbD_of_ge w i (Nat.le_of_not_lt h)]

/-- The length by the number of iterations that see a mask bit of 0 (R130). -/
theorem expandTemplate0_length (cfg : MopCfg) (n : Nat) (mask : Word) :
    (expandTemplate0 cfg n mask).length =
      ((List.range n).filter fun i => !(decide (i < 32) && mask.getLsbD i)).length *
          (1 + 3 * (cfg[1].getLsbD 1).toNat + (cfg[1].getLsbD 0).toNat) +
        (n - ((List.range n).filter fun i => !(decide (i < 32) && mask.getLsbD i)).length) *
          (1 + (cfg[1].getLsbD 0).toNat) := by
  have hlength := length_flatMap_of_two_lengths _ (fun i => decide (i < 32) && mask.getLsbD i) _ _
    (fun i => by rw [decide_lt_and_getLsbD]; exact template0Iteration_length cfg (mask.getLsbD i)) (List.range n)
  rwa [← expandTemplate0_eq_flatMap, List.length_range] at hlength

theorem template0Iteration_length_pos (cfg : MopCfg) (maskBit : Bool) :
    1 ≤ (template0Iteration cfg maskBit).length := by
  rw [template0Iteration_length]
  split <;> omega

theorem template0Iteration_length_le (cfg : MopCfg) (maskBit : Bool) :
    (template0Iteration cfg maskBit).length ≤ 5 := by
  have hb := Bool.toNat_le (cfg[1].getLsbD 0)
  have ha := Bool.toNat_le (cfg[1].getLsbD 1)
  rw [template0Iteration_length]
  split <;> omega

theorem le_expandTemplate0_length (cfg : MopCfg) (n : Nat) (mask : Word) :
    n ≤ (expandTemplate0 cfg n mask).length := by
  induction n generalizing mask with
  | zero => exact Nat.zero_le _
  | succ n ih =>
    have hfirst := template0Iteration_length_pos cfg (mask.getLsbD 0)
    have hrest := ih (mask >>> 1)
    rw [expandTemplate0, List.length_append]
    omega

theorem expandTemplate0_length_le (cfg : MopCfg) (n : Nat) (mask : Word) :
    (expandTemplate0 cfg n mask).length ≤ 5 * n := by
  induction n generalizing mask with
  | zero => exact Nat.le_refl 0
  | succ n ih =>
    have hfirst := template0Iteration_length_le cfg (mask.getLsbD 0)
    have hrest := ih (mask >>> 1)
    rw [expandTemplate0, List.length_append]
    omega

/-- No Template 0 expansion is longer than 128 iterations of 5 words (R130). -/
theorem expandMop_unpackZeroMask_length_le (c : BitVec 7) (m h : BitVec 16) (cfg : MopCfg) :
    (expandMop .unpackZeroMask c m h cfg).length ≤ 640 := by
  have hlength := expandTemplate0_length_le cfg (template0Iterations c) (zeroMask h m)
  have hcount := template0Iterations_le c
  rw [expandMop]
  omega

/-! Template 1. -/

/-- LoopOp is flipped after each word, so that every second one is the other; the last word replaces its own (R138,
R140). -/
theorem innerLoop_words (flip last : Word) (n : Nat) (op : Word) :
    (innerLoop flip last n op).1 =
      (List.range n).map fun i => if i + 1 = n then last else if i % 2 = 1 then op ^^^ flip else op := by
  induction n generalizing op with
  | zero => rfl
  | succ n ih =>
    rw [innerLoop, ih, List.range_succ_eq_map, List.map_cons, List.map_map]
    have hback : op ^^^ flip ^^^ flip = op := by rw [BitVec.xor_assoc, BitVec.xor_self, BitVec.xor_zero]
    refine congrArg₂ List.cons (by simp) (List.map_congr_left fun i _ => ?_)
    have hparity : (i + 1) % 2 = 1 ↔ ¬ i % 2 = 1 := by omega
    by_cases hi : i % 2 = 1 <;> simp [hback, hparity, hi]

/-- After an even number of flips LoopOp is what it was. -/
theorem innerLoop_loopOp (flip last : Word) (n : Nat) (op : Word) :
    (innerLoop flip last n op).2 = if n % 2 = 1 then op ^^^ flip else op := by
  induction n generalizing op with
  | zero => rfl
  | succ n ih =>
    have hback : op ^^^ flip ^^^ flip = op := by rw [BitVec.xor_assoc, BitVec.xor_self, BitVec.xor_zero]
    have hparity : (n + 1) % 2 = 1 ↔ ¬ n % 2 = 1 := by omega
    rw [innerLoop]
    by_cases hn : n % 2 = 1 <;> simp [ih, hback, hparity, hn]

/-- Every outer iteration starts with LoopOp: the doubled inner loop flips it back, the other one never flips it
(R138). -/
theorem innerLoop_keeps_loopOp (cfg : MopCfg) (last op : Word) :
    (innerLoop (loopOpFlip cfg) last (innerCount cfg) op).2 = op := by
  rw [innerLoop_loopOp]
  cases h : isNop cfg[6] <;> simp [loopOpFlip, innerCount, h]

/-- The outer loop's iterations, the last of them closed by Loop0Last (R140, R141). -/
theorem outerLoop_eq_flatMap (cfg : MopCfg) (n : Nat) (op : Word) :
    outerLoop cfg n op = (List.range n).flatMap fun j =>
      startWords cfg ++
        (innerLoop (loopOpFlip cfg) (if j + 1 = n then cfg[7] else cfg[8]) (innerCount cfg) op).1 ++ endWords cfg := by
  induction n with
  | zero => rfl
  | succ n ih =>
    rw [outerLoop, innerLoop_keeps_loopOp, ih, List.range_succ_eq_map, List.flatMap_cons, List.flatMap_map]
    simp [eq_comm]

theorem innerLoop_length (flip last : Word) (n : Nat) (op : Word) : (innerLoop flip last n op).1.length = n := by
  simp [innerLoop_words]

/-- Every outer iteration has as many words as every other (R145). -/
theorem expandTemplate1_length (cfg : MopCfg) :
    (expandTemplate1 cfg).length =
      outerCount cfg * ((startWords cfg).length + innerCount cfg + (endWords cfg).length) := by
  simp [expandTemplate1, outerLoop_eq_flatMap, List.length_flatMap, innerLoop_length, Nat.add_assoc]

theorem startWords_length (cfg : MopCfg) : (startWords cfg).length = if isNop cfg[2] then 0 else 1 := by
  rw [startWords]; split <;> rfl

theorem endWords_length (cfg : MopCfg) :
    (endWords cfg).length = (if isNop cfg[3] then 0 else 1) * (1 + if isNop cfg[4] then 0 else 1) := by
  rw [endWords]
  cases isNop cfg[3] <;> cases isNop cfg[4] <;> rfl

theorem endWords_eq (cfg : MopCfg) :
    endWords cfg = if isNop cfg[3] then [] else if isNop cfg[4] then [cfg[3]] else [cfg[3], cfg[4]] := by
  rw [endWords]
  cases isNop cfg[4] <;> rfl

theorem innerCount_eq (cfg : MopCfg) :
    innerCount cfg = cfg[1].toNat % 128 * if (!isNop cfg[6]) = true then 2 else 1 := by
  rw [innerCount, loopCount_eq_mod]
  cases isNop cfg[6] <;> simp

theorem outerCount_eq (cfg : MopCfg) :
    outerCount cfg = if cfg[0].toNat % 128 = 1 ∧ isNop cfg[2] = true ∧ innerCount cfg = 0 ∧ isNop cfg[3] = false
      then 129 else cfg[0].toNat % 128 := by
  rw [outerCount, loopCount_eq_mod]
  split
  · next h => rw [h.1]
  · rfl

theorem expandTemplate1_length_of_bug {cfg : MopCfg} (hoc : cfg[0].toNat % 128 = 1) (hic : cfg[1].toNat % 128 = 0)
    (h2 : isNop cfg[2] = true) (h3 : isNop cfg[3] = false) : (expandTemplate1 cfg).length ≤ 258 := by
  rw [expandTemplate1_length, outerCount_of_bug hoc hic h2 h3, (innerCount_eq_zero_iff cfg).2 hic, startWords_of_nop h2,
    endWords_length, h3]
  cases isNop cfg[4] <;> decide

/-- Outside the hardware bug both loops run at most 127 times, the inner one doubled (R145, R147). -/
theorem expandTemplate1_length_of_not_bug {cfg : MopCfg}
    (h : ¬ (cfg[0].toNat % 128 = 1 ∧ cfg[1].toNat % 128 = 0 ∧ isNop cfg[2] = true ∧ isNop cfg[3] = false)) :
    (expandTemplate1 cfg).length ≤ 32639 := by
  have hstart : (startWords cfg).length ≤ 1 := by rw [startWords_length]; split <;> omega
  have hend : (endWords cfg).length ≤ 2 := by
    rw [endWords_length]
    cases isNop cfg[3] <;> cases isNop cfg[4] <;> decide
  have hinner : innerCount cfg ≤ 254 := by rw [innerCount_eq]; split <;> omega
  calc (expandTemplate1 cfg).length
      = outerCount cfg * ((startWords cfg).length + innerCount cfg + (endWords cfg).length) :=
        expandTemplate1_length cfg
    _ ≤ 127 * 257 := Nat.mul_le_mul (by rw [outerCount_of_not_bug h]; omega) (by omega)

/-- No expansion is longer than `MOP_MAX` (R147). -/
theorem expandMop_length_le (template : Template) (c : BitVec 7) (m h : BitVec 16) (cfg : MopCfg) :
    (expandMop template c m h cfg).length ≤ 32639 := by
  cases template with
  | unpackZeroMask => exact (expandMop_unpackZeroMask_length_le c m h cfg).trans (by decide)
  | doubleLoop =>
    by_cases hbug : cfg[0].toNat % 128 = 1 ∧ cfg[1].toNat % 128 = 0 ∧ isNop cfg[2] = true ∧ isNop cfg[3] = false
    · obtain ⟨hoc, hic, h2, h3⟩ := hbug
      exact (expandTemplate1_length_of_bug hoc hic h2 h3).trans (by decide)
    · exact expandTemplate1_length_of_not_bug hbug

/-! The statements. -/

/-- Settles O11: the shifted mask shows iteration i its bit i, and a word has no bit past 31. -/
theorem template0IterationsFollowTheMask : Obligations.Template0IterationsFollowTheMask := by
  intro c m h cfg
  rw [expandMop, expandTemplate0_eq_flatMap]
  refine congrArg (List.flatMap · _) (funext fun i => ?_)
  have hbit : (i < 32 ∧ (zeroMask h m).getLsbD i = true) ↔ (zeroMask h m).getLsbD i = true :=
    and_iff_right_of_imp BitVec.lt_of_getLsbD
  simp only [zeroMask] at hbit
  simp only [hbit, template0Iteration, hasB, hasA123]
  rfl

/-- Settles O12: an iteration's length is one of two, by its mask bit, and lies between 1 and 5. -/
theorem template0Length : Obligations.Template0Length := by
  refine ⟨fun c m h cfg => ⟨expandTemplate0_length cfg _ _, ?_, expandMop_unpackZeroMask_length_le c m h cfg⟩,
    fun m h cfg hb ha => ?_, fun cfg hb ha => ?_⟩
  · exact (template0Iterations_pos c).trans (le_expandTemplate0_length cfg _ _)
  · simp [expandMop, template0Iterations, expandTemplate0, template0Iteration_length_of_no_flags hb ha]
  · have hmask : zeroMask 0 0 = 0#32 := by decide
    rw [expandMop, hmask, expandTemplate0_eq_flatMap, List.length_flatMap]
    simp [template0Iterations, template0Iteration_length_of_both_flags hb ha]

/-- Settles O13: the inner loop's words by their parity, within the outer loop's iterations. -/
theorem template1ClosedForm : Obligations.Template1ClosedForm := by
  intro cfg
  simp only [expandTemplate1, outerLoop_eq_flatMap, ← innerCount_eq, ← outerCount_eq, innerLoop_words, endWords_eq,
    startWords]
  refine congrArg (List.flatMap · _) (funext fun j => ?_)
  have hother : cfg[5] ^^^ (cfg[5] ^^^ cfg[6]) = cfg[6] := by
    rw [← BitVec.xor_assoc, BitVec.xor_self, BitVec.zero_xor]
  cases h : isNop cfg[6] <;> simp [loopOpFlip, h, hother]

/-- Settles O14: the outer count times the words of one iteration. -/
theorem template1Length : Obligations.Template1Length := by
  intro cfg
  have hinner : innerCount cfg = cfg[1].toNat % 128 * (1 + if isNop cfg[6] then 0 else 1) := by
    rw [innerCount_eq]
    cases isNop cfg[6] <;> rfl
  rw [expandTemplate1_length, startWords_length, endWords_length, outerCount_eq, hinner]
  cases isNop cfg[2] <;> cases isNop cfg[3] <;> simp

/-- Settles O15: outside the hardware bug both counts are at most 127, within it an iteration is at most its two end
words. -/
theorem largestExpansion : Obligations.LargestExpansion := by
  refine ⟨expandMop_length_le, fun cfg hoc hic h6 h2 h3 h4 => ?_, fun cfg hoc hic h2 h3 => ?_,
    expandMop_unpackZeroMask_length_le⟩
  · simp [expandTemplate1_length, startWords_length, endWords_length, outerCount_eq, innerCount_eq, hoc, hic, h2, h3,
      h4, h6]
  · exact expandTemplate1_length_of_bug hoc hic h2 h3

/-- Settles O17: an outer count of 0 leaves nothing, an inner count of 0 only the framing, and the counts are taken
modulo 128. -/
theorem template1ZeroCounts : Obligations.Template1ZeroCounts := by
  refine ⟨fun cfg hoc => ?_, fun cfg hoc hic => ⟨?_, fun h2 h3 => ?_⟩, fun cfg a b ha hb => ?_, by decide⟩
  · have hcount : outerCount cfg = 0 := by simp [outerCount_eq, hoc]
    rw [expandTemplate1, hcount, outerLoop]
  · rw [expandTemplate1_of_innerCount_zero hic, outerCount_eq, startWords, endWords_eq]
    simp [(innerCount_eq_zero_iff cfg).2 hic]
  · rw [expandTemplate1_of_innerCount_zero hic, startWords_of_nop h2, endWords_of_nop h3]
    simp
  · rw [template1ClosedForm, template1ClosedForm]
    simp [ha, hb]

end Sys2Proof.Machine
end

section
/-! What an instruction does at each unit, and that it is the functional model of its word (spec/40_mop.md R120 to R122,
spec/41_replay.md R161 to R170, spec/42_passthrough_and_composition.md R190 to R194). -/

namespace Sys2Proof.Machine

open Sys2Proof.Safety

/-! The expanders' opcodes, and the instructions that have them. -/

theorem isExpanderOpcode_iff (w : Word) : isExpanderOpcode w = true ↔ opcodeOf w ∈ [0x01#8, 0x03#8, 0x04#8] := by
  simp [isExpanderOpcode, or_assoc]

theorem isExpanderOpcode_eq_false_iff (w : Word) :
    isExpanderOpcode w = false ↔ opcodeOf w ∉ [0x01#8, 0x03#8, 0x04#8] := by
  rw [← isExpanderOpcode_iff, Bool.not_eq_true]

theorem opcodeOf_of_decode {w : Word} {i : Instr} (h : decode w = i) : opcodeOf w = opcodeByte i := by
  rw [← h, ← opcodeOf_encode, encode_decode]

/-- A word with REPLAY's opcode is read as a REPLAY, and no other is. -/
theorem decode_ne_replay_iff (w : Word) : (∀ a b u e l, decode w ≠ .replay a b u e l) ↔ opcodeOf w ≠ 0x04#8 := by
  constructor
  · intro h hop
    rw [decode_of_opcodeOf_replay hop] at h
    exact h _ _ _ _ _ rfl
  · intro hop a b u e l h
    exact hop (opcodeOf_of_decode h)

/-! Delivery and capture (spec/41_replay.md R161, R164). -/

theorem deliver_of_clean {t : ThreadId} {w : Word} {s : State} (h : isExpanderOpcode w = false) :
    deliver t w s = .next (s.setThread t ((s.thread t).appendOut w)) := deliver_next.2 ⟨h, rfl⟩

theorem captureWord_silent {t : ThreadId} {r : Recording} {w : Word} {s : State} (h : r.exec = false) :
    captureWord t r w s = .next (s.setThread t ((s.thread t).capture r w)) := captureWord_next.2 (.inl ⟨h, rfl⟩)

theorem captureWord_delivered {t : ThreadId} {r : Recording} {w : Word} {s : State} (h : r.exec = true)
    (hw : isExpanderOpcode w = false) :
    captureWord t r w s = .next (s.setThread t (((s.thread t).capture r w).appendOut w)) :=
  captureWord_next.2 (.inr ⟨h, hw, rfl⟩)

theorem captureWord_refused {t : ThreadId} {r : Recording} {w : Word} {s : State} (h : r.exec = true)
    (hw : isExpanderOpcode w = true) : captureWord t r w s = .refused .expanderOpcodeDownstream := by
  rw [captureWord, if_pos h, deliver_refused hw]

/-! The Replay Expander, recording and not. -/

/-- A recording captures every instruction, whatever it is (R165). -/
theorem exec_of_recording {s : State} {t : ThreadId} {r : Recording} (hsite : s.site = ⟨t, .replayExpander⟩)
    (hrec : (s.thread t).recording = some r) (i : Instr) : exec i s = captureWord t r (encode i) s := by
  cases i <;>
    simp [exec, execMop, execMopCfg, execReplay, execNop, execResourcedecl, execDmanop, execSfpnop, execOther,
      passThrough, hsite, captureOr_some hrec]

/-- Outside a recording every instruction but REPLAY is delivered (R161, R190). -/
theorem exec_of_not_replay {s : State} {t : ThreadId} {i : Instr} (hsite : s.site = ⟨t, .replayExpander⟩)
    (hrec : (s.thread t).recording = none) (hi : ∀ a b u e l, i ≠ .replay a b u e l) :
    exec i s = deliver t (encode i) s := by
  cases i with
  | replay a b u e l => exact absurd rfl (hi a b u e l)
  | mop | mopCfg | nop | resourcedecl | dmanop | sfpnop | other =>
    simp [exec, execMop, execMopCfg, execNop, execResourcedecl, execDmanop, execSfpnop, execOther, passThrough, hsite,
      captureOr_none hrec]

/-- A playback REPLAY changes the thread's pending playback and nothing else (R167). -/
theorem exec_replay_playback {s : State} {t : ThreadId} (hsite : s.site = ⟨t, .replayExpander⟩)
    (hrec : (s.thread t).recording = none) (a b : BitVec 10) (u : BitVec 2) (e : Bool) :
    exec (.replay a b u e false) s =
      .next (s.setThread t ((s.thread t).startPlayback (replayIndex a) (replayCount b))) :=
  exec_replay_of_not_recording hsite hrec a b u e false

/-! The MOP Expander. -/

theorem exec_mop {s : State} {t : ThreadId} (hsite : s.site = ⟨t, .mopExpander⟩) (template : Template) (c : BitVec 7)
    (m : BitVec 16) : exec (.mop template c m) s =
      .next (s.setThread t
        ((s.thread t).startExpansion (expandMop template c m (s.thread t).maskHi (s.thread t).mopCfg))) := by
  simp [exec, execMop, hsite]

theorem exec_mopCfg {s : State} {t : ThreadId} (hsite : s.site = ⟨t, .mopExpander⟩) (r : BitVec 8) (h : BitVec 16) :
    exec (.mopCfg r h) s = .next (s.setThread t ((s.thread t).setMaskHi h)) := by
  simp [exec, execMopCfg, hsite]

/-- Every instruction but MOP and MOP_CFG passes (spec/40_mop.md R120). -/
theorem exec_passes_mopExpander {s : State} {t : ThreadId} {i : Instr} (hsite : s.site = ⟨t, .mopExpander⟩)
    (hmop : opcodeOf (encode i) ≠ 0x01#8) (hcfg : opcodeOf (encode i) ≠ 0x03#8) :
    exec i s = .next (s.setThread t ((s.thread t).pushPostMop (encode i))) := by
  obtain ⟨th', hexec, ⟨tm, c, m, rfl, -⟩ | ⟨r, h, rfl, -⟩ | ⟨-, -, rfl⟩⟩ := exec_mopExpander i hsite
  · exact absurd (opcodeOf_encode _) hmop
  · exact absurd (opcodeOf_encode _) hcfg
  · exact hexec

/-! The functional models, said of the decoded word. -/

/-- MaskLo in a word of its own is the word's lower half. -/
theorem setWidth_extractLsb'_low (w : Word) : (w.extractLsb' 0 16).setWidth 32 = w &&& 0xFFFF := by
  refine BitVec.eq_of_toNat_eq ?_
  have hmask : (0xFFFF : Word).toNat = 2 ^ 16 - 1 := by decide
  rw [BitVec.toNat_setWidth, BitVec.extractLsb'_toNat, BitVec.toNat_and, hmask, Nat.and_two_pow_sub_one_eq_mod,
    Nat.shiftRight_zero]
  omega

theorem mopModel_of_mop {w : Word} {template : Template} {c : BitVec 7} {m : BitVec 16}
    (h : decode w = .mop template c m) (cfg : MopCfg) (maskHi : BitVec 16) :
    mopModel cfg maskHi w = (expandMop template c m maskHi cfg, maskHi) := by
  have hop : opcodeOf w = 0x01#8 := opcodeOf_of_decode h
  rw [decode_of_opcodeOf_mop hop, decodeMop] at h
  injection h with htemplate hc hm
  subst htemplate hc hm
  cases hbit : w[23] <;>
    simp [mopModel, hop, hbit, templateOfBit, expandMop, zeroMask, setWidth_extractLsb'_low, template0Iterations]

theorem mopModel_of_mopCfg {w : Word} {r : BitVec 8} {h : BitVec 16} (hd : decode w = .mopCfg r h) (cfg : MopCfg)
    (maskHi : BitVec 16) : mopModel cfg maskHi w = ([], h) := by
  have hop : opcodeOf w = 0x03#8 := opcodeOf_of_decode hd
  have hfields : decode w = decodeMopCfg w := by simp [decode, hop]
  rw [hfields, decodeMopCfg] at hd
  injection hd with _ hh
  simp [mopModel, hop, hh]

theorem mopModel_of_other {w : Word} (hmop : ∀ template c m, decode w ≠ .mop template c m)
    (hcfg : ∀ r h, decode w ≠ .mopCfg r h) (cfg : MopCfg) (maskHi : BitVec 16) :
    mopModel cfg maskHi w = ([w], maskHi) := by
  have h01 : opcodeOf w ≠ 0x01#8 := fun hop => hmop _ _ _ (decode_of_opcodeOf_mop hop)
  have h03 : opcodeOf w ≠ 0x03#8 := fun hop => hcfg _ _ (by simp only [decode, hop]; rfl)
  simp [mopModel, h01, h03]

theorem replayModel_of_recording {u : ReplayUnit} {r : Recording} (h : u.recording = some r) (w : Word) :
    replayModel u w =
      (if r.exec then [w] else [], { buf := u.buf.set (replaySlot r.base r.i) w, recording := r.advance }) := by
  simp [replayModel, h, Recording.advance]

theorem replayModel_of_not_replay {u : ReplayUnit} {w : Word} (h : u.recording = none) (hw : opcodeOf w ≠ 0x04#8) :
    replayModel u w = ([w], u) := by
  simp [replayModel, h, hw]

theorem replayModel_of_replay {u : ReplayUnit} {w : Word} {a b : BitVec 10} {x : BitVec 2} {e l : Bool}
    (h : u.recording = none) (hw : decode w = .replay a b x e l) :
    replayModel u w =
      if l then ([], { u with recording := some { base := replayIndex a, i := 0, n := replayCount b, exec := e } })
      else (playbackWords u.buf (replayIndex a) (replayCount b), u) := by
  have hop : opcodeOf w = 0x04#8 := opcodeOf_of_decode hw
  rw [decode_of_opcodeOf_replay hop, decodeReplay] at hw
  injection hw with ha hb hx he hl
  subst ha hb hx he hl
  have hbase : replayIndex (w.extractLsb' 14 10) = ⟨(w.extractLsb' 14 5).toNat, (w.extractLsb' 14 5).isLt⟩ :=
    Fin.ext (replayIndex_extractLsb' w)
  simp [replayModel, h, hop, hbase, replayCount_extractLsb']

/-! The Replay Expander against its model (spec/41_replay.md R161). -/

/-- Thread t has gone from s to s' as `F_replay` has it for the word w. -/
def answersReplayModel (t : ThreadId) (w : Word) (s s' : State) : Prop :=
  let m := replayModel { buf := (s.thread t).replayBuf, recording := (s.thread t).recording } w
  (s'.thread t).out ++ (s'.thread t).playPending = (s.thread t).out ++ m.1 ∧
    (s'.thread t).replayBuf = m.2.buf ∧ (s'.thread t).recording = m.2.recording ∧ unitFrame t s s'

/-- A captured word: the model's first branch. -/
theorem exec_recording_refines {s : State} {t : ThreadId} {r : Recording} {w : Word}
    (hsite : s.site = ⟨t, .replayExpander⟩) (hpending : (s.thread t).playPending = [])
    (hrec : (s.thread t).recording = some r) (hw : r.exec = true → isExpanderOpcode w = false) :
    ∃ s', exec (decode w) s = .next s' ∧ answersReplayModel t w s s' := by
  have hcapture := exec_of_recording hsite hrec (decode w)
  rw [encode_decode] at hcapture
  cases hexec : r.exec with
  | false =>
    refine ⟨_, hcapture.trans (captureWord_silent hexec), ?_, ?_, ?_, unitFrame_setThread s t _⟩ <;>
      simp [replayModel_of_recording, hrec, hexec, hpending]
  | true =>
    refine ⟨_, hcapture.trans (captureWord_delivered hexec (hw hexec)), ?_, ?_, ?_, unitFrame_setThread s t _⟩ <;>
      simp [replayModel_of_recording, hrec, hexec, hpending]

/-- A REPLAY outside a recording: the model's record and playback branches. -/
theorem exec_replay_refines {s : State} {t : ThreadId} {w : Word} (hsite : s.site = ⟨t, .replayExpander⟩)
    (hpending : (s.thread t).playPending = []) (hrec : (s.thread t).recording = none) (hw : opcodeOf w = 0x04#8) :
    ∃ s', exec (decode w) s = .next s' ∧ answersReplayModel t w s s' := by
  obtain ⟨a, b, x, e, l, hd⟩ : ∃ a b x e l, decode w = .replay a b x e l :=
    ⟨_, _, _, _, _, decode_of_opcodeOf_replay hw⟩
  cases l with
  | true =>
    refine ⟨_, (congrArg (exec · s) hd).trans (exec_replay_record hsite hrec a b x e), ?_, ?_, ?_,
      unitFrame_setThread s t _⟩ <;> simp [replayModel_of_replay _ hd, hrec, hpending]
  | false =>
    refine ⟨_, (congrArg (exec · s) hd).trans (exec_replay_playback hsite hrec a b x e), ?_, ?_, ?_,
      unitFrame_setThread s t _⟩ <;> simp [replayModel_of_replay _ hd, hrec]

/-- Any other word outside a recording: the model passes it. -/
theorem exec_pass_refines {s : State} {t : ThreadId} {w : Word} (hsite : s.site = ⟨t, .replayExpander⟩)
    (hpending : (s.thread t).playPending = []) (hrec : (s.thread t).recording = none) (hreplay : opcodeOf w ≠ 0x04#8)
    (hw : isExpanderOpcode w = false) : ∃ s', exec (decode w) s = .next s' ∧ answersReplayModel t w s s' := by
  have hdeliver := exec_of_not_replay hsite hrec ((decode_ne_replay_iff w).2 hreplay)
  rw [encode_decode] at hdeliver
  refine ⟨_, hdeliver.trans (deliver_of_clean hw), ?_, ?_, ?_, unitFrame_setThread s t _⟩ <;>
    simp [replayModel_of_not_replay _ hreplay, hpending, hrec]

/-! The statements. -/

/-- Settles O9: the next state is the old one with the thread's MaskHi replaced. -/
theorem mopCfgSetsMaskHi : Obligations.MopCfgSetsMaskHi := by
  intro s t reserved maskHi hsite
  exact ⟨_, exec_mopCfg hsite reserved maskHi, State.thread_setThread_same _ _ _, unitFrame_setThread s t _⟩

/-- Settles O10: the next state is the old one with the thread's expansion started. -/
theorem mopStartsItsExpansion : Obligations.MopStartsItsExpansion := by
  intro s t tm c m hsite
  refine ⟨_, exec_mop hsite tm c m, ?_, unitFrame_setThread s t _⟩
  rw [State.thread_setThread_same, ThreadState.startExpansion]
  cases expandMop tm c m (s.thread t).maskHi (s.thread t).mopCfg <;> simp

/-- Settles O19: what a unit computes from a word uses the named bits only. -/
theorem unusedBitsAreIgnored : Obligations.UnusedBitsAreIgnored := by
  refine ⟨fun s t r h hsite => ?_, fun s t a b a' b' u u' e e' l hsite hrec ha hb he => ?_⟩
  · rw [exec_mopCfg hsite, exec_mopCfg hsite]
  · have hindex : replayIndex a = replayIndex a' := Fin.ext ha
    have hcount : replayCount b = replayCount b' := by rw [replayCount, replayCount, hb]
    cases l with
    | true => rw [exec_replay_record hsite hrec, exec_replay_record hsite hrec, hindex, hcount, he rfl]
    | false => rw [exec_replay_playback hsite hrec, exec_replay_playback hsite hrec, hindex, hcount]

/-- Settles O21: the pending words are read from the slots, and there is at least one. -/
theorem playbackEmitsTheAddressedSlots : Obligations.PlaybackEmitsTheAddressedSlots := by
  intro s t a b u e hsite hrec
  refine ⟨_, exec_replay_playback hsite hrec a b u e, ?_, unitFrame_setThread s t _⟩
  have hbusy : (playbackWords (s.thread t).replayBuf (replayIndex a) (replayCount b)).isEmpty = false := by
    have hlength := playbackWords_length (s.thread t).replayBuf (replayIndex a) (replayCount b)
    have hpos := replayCount_pos b
    rw [List.isEmpty_eq_false_iff]
    exact List.ne_nil_of_length_pos (by omega)
  rw [State.thread_setThread_same, ThreadState.startPlayback, hbusy]
  simp only [playbackWords, Fin.getElem_fin, replaySlot_replayIndex_val]
  rfl

/-- Settles O22: a recording captures the word, and only delivering it can be refused. -/
theorem recordingCapturesEveryInstruction : Obligations.RecordingCapturesEveryInstruction := by
  intro s t i r hsite hrec
  refine ⟨fun hexec => ?_, fun hexec hop => ?_, fun hexec hop => ?_⟩
  · refine ⟨_, (exec_of_recording hsite hrec i).trans (captureWord_silent hexec), ?_, unitFrame_setThread s t _⟩
    rw [State.thread_setThread_same]
    rfl
  · refine ⟨_, (exec_of_recording hsite hrec i).trans
      (captureWord_delivered hexec ((isExpanderOpcode_eq_false_iff _).2 hop)), ?_, unitFrame_setThread s t _⟩
    rw [State.thread_setThread_same]
    rfl
  · exact (exec_of_recording hsite hrec i).trans (captureWord_refused hexec ((isExpanderOpcode_iff _).2 hop))

/-- Settles O24: the instructions with another opcode pass. -/
theorem mopExpanderPassesOtherWords : Obligations.MopExpanderPassesOtherWords := by
  intro s t i hsite hmop hcfg
  exact ⟨_, exec_passes_mopExpander hsite hmop hcfg, State.thread_setThread_same _ _ _, unitFrame_setThread s t _⟩

/-- Settles O25: the word is delivered, and its opcode lets it be. -/
theorem replayExpanderPassesOtherWords : Obligations.ReplayExpanderPassesOtherWords := by
  intro s t i hsite hrec hop
  have hi : ∀ a b u e l, i ≠ .replay a b u e l := by
    rintro a b u e l rfl
    simp [opcodeOf_encode, opcodeByte] at hop
  exact ⟨_, (exec_of_not_replay hsite hrec hi).trans (deliver_of_clean ((isExpanderOpcode_eq_false_iff _).2 hop)),
    State.thread_setThread_same _ _ _, unitFrame_setThread s t _⟩

/-- Settles O26: both are delivered as they stand, which their opcode forbids. -/
theorem mopDownstreamIsRefused : Obligations.MopDownstreamIsRefused := by
  refine fun s t hsite hrec => ⟨fun tm c m => ?_, fun r h => ?_⟩
  · rw [exec_of_not_replay hsite hrec (by simp)]
    exact deliver_refused (by simp [isExpanderOpcode, opcodeOf_encode, opcodeByte])
  · rw [exec_of_not_replay hsite hrec (by simp)]
    exact deliver_refused (by simp [isExpanderOpcode, opcodeOf_encode, opcodeByte])

/-- Settles O52: the three things an instruction can do at the MOP Expander are the model's three answers. -/
theorem mopExpanderRefinesItsModel : Obligations.MopExpanderRefinesItsModel := by
  intro s t w hsite hpending
  obtain ⟨th', hexec, hcase⟩ := exec_mopExpander (decode w) hsite
  refine ⟨_, hexec, ?_, ?_, unitFrame_setThread s t _⟩ <;> rw [State.thread_setThread_same]
  · obtain ⟨tm, c, m, hd, rfl⟩ | ⟨r, h, hd, rfl⟩ | ⟨hmop, hcfg, rfl⟩ := hcase
    · rw [mopModel_of_mop hd]; rfl
    · rw [mopModel_of_mopCfg hd]; simp [hpending]
    · rw [mopModel_of_other hmop hcfg]; simp [hpending]
  · obtain ⟨tm, c, m, hd, rfl⟩ | ⟨r, h, hd, rfl⟩ | ⟨hmop, hcfg, rfl⟩ := hcase
    · rw [mopModel_of_mop hd]; rfl
    · rw [mopModel_of_mopCfg hd]; rfl
    · rw [mopModel_of_other hmop hcfg]; rfl

/-- Settles O53: a recording captures, another word passes, a REPLAY is interpreted, each as the model has it. -/
theorem replayExpanderRefinesItsModel : Obligations.ReplayExpanderRefinesItsModel := by
  intro s t w hsite hpending m passes
  refine ⟨fun hpass hop => ?_, fun hnot => ?_⟩
  · have hw := (isExpanderOpcode_iff w).2 hop
    obtain ⟨r, hrec, hexec⟩ | ⟨hrec, hreplay⟩ := hpass
    · rw [exec_of_recording hsite hrec, encode_decode]
      exact captureWord_refused hexec hw
    · rw [exec_of_not_replay hsite hrec ((decode_ne_replay_iff w).2 hreplay), encode_decode]
      exact deliver_refused hw
  · have hclean : passes → isExpanderOpcode w = false := fun hpass =>
      (isExpanderOpcode_eq_false_iff w).2 fun hop => hnot ⟨hpass, hop⟩
    cases hrec : (s.thread t).recording with
    | some r =>
      exact exec_recording_refines hsite hpending hrec fun hexec => hclean (.inl ⟨r, hrec, hexec⟩)
    | none =>
      by_cases hreplay : opcodeOf w = 0x04#8
      · exact exec_replay_refines hsite hpending hrec hreplay
      · exact exec_pass_refines hsite hpending hrec hreplay (hclean (.inr ⟨hrec, hreplay⟩))

end Sys2Proof.Machine
end

section
/-! The units' turns: which instruction a turn runs, what it emits, and when it is idle
(spec/40_mop.md R120, R148, spec/41_replay.md R161, R168, spec/42_passthrough_and_composition.md R201). -/

namespace Sys2Proof.Machine

open Sys2Proof.Safety

/-! Whose turn it is. -/

/-- The first turn of the schedule is the step's (R201). -/
theorem step_of_schedule {s : State} {a : Agent} {turns : List Agent} (h : s.schedule = a :: turns) :
    step s = agentStep a { s with schedule := turns } := by
  simp [step, nextTurn, h]

/-- A step is some agent's turn, in a machine with the same threads and cores. -/
theorem step_eq (s : State) :
    ∃ a s1, step s = agentStep a s1 ∧ (∀ t, s1.thread t = s.thread t) ∧ (∀ t, s1.trisc t = s.trisc t) ∧
      s1.brisc = s.brisc := by
  cases h : s.schedule with
  | cons a turns => exact ⟨a, _, step_of_schedule h, fun t => by simp, fun t => by simp, rfl⟩
  | nil =>
    exact ⟨Config.freeAgent s.turns, { s with turns := s.turns + 1 }, by simp [step, nextTurn, h], fun t => by simp,
      fun t => by simp, rfl⟩

/-! Taking. -/

theorem mopStep_take {s : State} {t : ThreadId} {w : Word} {rest : List Word} (hpending : (s.thread t).mopPending = [])
    (hfifo : (s.thread t).fifo = w :: rest) : mopStep t s =
      exec (decode w) ((s.setThread t ((s.thread t).setFifo rest)).setSite ⟨t, .mopExpander⟩) := by
  simp [mopStep, hpending, hfifo, mopTake]

theorem replayStep_take {s : State} {t : ThreadId} {w : Word} {rest : List Word}
    (hpending : (s.thread t).playPending = []) (hinput : (s.thread t).postMop = w :: rest) : replayStep t s =
      exec (decode w) ((s.setThread t ((s.thread t).setPostMop rest)).setSite ⟨t, .replayExpander⟩) := by
  simp [replayStep, hpending, hinput, replayTake]

/-! Emitting. -/

theorem mopStep_emit {s : State} {t : ThreadId} {w : Word} {rest : List Word}
    (hpending : (s.thread t).mopPending = w :: rest) :
    mopStep t s = .next (s.setThread t (s.thread t).emitMop) := by
  simp [mopStep, hpending, mopEmit]

theorem replayStep_emit {s : State} {t : ThreadId} {w : Word} {rest : List Word}
    (hpending : (s.thread t).playPending = w :: rest) :
    replayStep t s = deliver t w (s.setThread t ((s.thread t).popPlayback rest)) := by
  simp [replayStep, hpending, replayEmit]

/-- A busy flag falls with the last pending word (R28, R33). -/
theorem not_isEmpty_eq_decide_ne_nil (l : List Word) : (!l.isEmpty) = decide (l ≠ []) := by
  cases l <;> rfl

/-! A core that waits. -/

theorem coreStep_of_attempt_none {c : CoreId} {s : State} (h : attempt c s = none) : coreStep c s = .next s := by
  simp [coreStep, h]

theorem coreStep_of_attempt_error {c : CoreId} {s : State} {e : Hold} (h : attempt c s = some (.error e)) :
    coreStep c s = .next s := by
  simp [coreStep, h]

theorem attempt_of_holdOf {c : CoreId} {s : State} {e : Hold} (h : holdOf c s = some e) :
    attempt c s = some (.error e) := by
  unfold holdOf at h
  split at h
  · next hattempt => rw [hattempt, Option.some.inj h]
  · cases h
  · cases h

theorem holdOf_of_attempt_error {c : CoreId} {s : State} {e : Hold} (h : attempt c s = some (.error e)) :
    holdOf c s = some e := by
  simp [holdOf, h]

/-! The statements. -/

/-- Settles O27: the turn is the schedule's first, and the word is gone from the FIFO when the instruction runs. -/
theorem mopTurnRunsTheDecodedInstruction : Obligations.MopTurnRunsTheDecodedInstruction := by
  intro s t turns w rest hturn hpending hfifo
  refine ⟨_, (step_of_schedule hturn).trans (mopStep_take (by simpa using hpending) (by simpa using hfifo)), ?_⟩
  refine ⟨rfl, by simp, ?_, fun t' hne => by simp [hne], fun t' => by simp, by simp, by simp, by simp⟩
  simp [ThreadState.setFifo]

/-- Settles O28: the same for the other unit's queue. -/
theorem replayTurnRunsTheDecodedInstruction : Obligations.ReplayTurnRunsTheDecodedInstruction := by
  intro s t turns w rest hturn hpending hinput
  refine ⟨_, (step_of_schedule hturn).trans (replayStep_take (by simpa using hpending) (by simpa using hinput)), ?_⟩
  refine ⟨rfl, by simp, ?_, fun t' hne => by simp [hne], fun t' => by simp, by simp, by simp, by simp⟩
  simp [ThreadState.setPostMop]

/-- Settles O29: the placed word is the FIFO's head, and the turn is its unit's. -/
theorem placedWordRunsNext : Obligations.PlacedWordRunsNext := by
  intro s w
  have hword : BitVec.ofNat 32 w.toNat = w := BitVec.ofNat_toNat 32 w |>.trans (BitVec.setWidth_eq w)
  have hturn : (placeFetchWord s w).schedule = .expander ⟨.t0, .mopExpander⟩ :: s.schedule := rfl
  have htake := mopStep_take (s := { placeFetchWord s w with schedule := s.schedule }) (t := .t0) (w := w)
    (rest := (s.thread .t0).fifo.drop 1) rfl rfl
  rw [State.withFetchWord, hword]
  exact ⟨_, (step_of_schedule hturn).trans htake, rfl, rfl, rfl, rfl⟩

/-- Settles O30: the turn is the expansion's emission. -/
theorem mopTurnEmitsOnePendingWord : Obligations.MopTurnEmitsOnePendingWord := by
  intro s t w rest hpending
  refine ⟨_, mopStep_emit hpending, ?_, unitFrame_setThread s t _⟩
  rw [State.thread_setThread_same, ThreadState.emitMop_cons _ _ _ hpending, not_isEmpty_eq_decide_ne_nil]

/-- Settles O31: the turn is the delivery of the playback's first word, which its opcode allows or forbids. -/
theorem replayTurnDeliversOnePendingWord : Obligations.ReplayTurnDeliversOnePendingWord := by
  intro s t w rest hpending
  refine ⟨fun hop => ?_, fun hop => ?_⟩
  · have hclean := (isExpanderOpcode_eq_false_iff w).2 hop
    refine ⟨_, (replayStep_emit hpending).trans (deliver_of_clean hclean), ?_, ?_⟩
    · simp [ThreadState.popPlayback, ThreadState.appendOut, not_isEmpty_eq_decide_ne_nil]
    · rw [State.setThread_setThread]
      exact unitFrame_setThread s t _
  · exact (replayStep_emit hpending).trans (deliver_refused ((isExpanderOpcode_iff w).2 hop))

/-- Settles O32: nothing pending and nothing to take, no action, or an action that waits. -/
theorem idleTurnsChangeNothing : Obligations.IdleTurnsChangeNothing := by
  refine ⟨fun s t hpending hfifo => ?_, fun s t hpending hinput => ?_, fun s t hprogram => ?_, fun s hprogram => ?_,
    fun s c e hheld => ?_⟩
  · simp [agentStep, expanderStep, mopStep, hpending, hfifo]
  · simp [agentStep, expanderStep, replayStep, hpending, hinput]
  · exact coreStep_of_attempt_none (by simp [attempt, hprogram])
  · exact coreStep_of_attempt_none (by simp [attempt, hprogram])
  · exact coreStep_of_attempt_error (attempt_of_holdOf hheld)

end Sys2Proof.Machine
end

section
/-! The cores' turns: pushes, stores, loads, `mop_sync` and the CSRs (spec/20_memory.md R50 to R60, spec/10_state.md
R23, R33 to R39). -/

namespace Sys2Proof.Machine

open Sys2Proof.Safety

/-! The accessors these turns go through. -/

@[simp] theorem State.port_setPort_ne (s : State) (c c' : CoreId) (p : CorePort) (h : c' ≠ c) :
    (s.setPort c p).port c' = s.port c' := by
  cases c with
  | brisc =>
    cases c' with
    | brisc => exact absurd rfl h
    | trisc t' => cases t' <;> rfl
  | trisc t =>
    cases c' with
    | brisc => exact congrArg BriscState.port (State.setTrisc_brisc s t _)
    | trisc t' =>
      have ht : t' ≠ t := fun e => h (congrArg CoreId.trisc e)
      exact congrArg TriscState.port (State.trisc_setTrisc_ne s t t' _ ht)

@[simp] theorem State.setBriscProgram_port (s : State) (p : List BriscAction) (c : CoreId) :
    (s.setBriscProgram p).port c = s.port c := by
  cases c with
  | brisc => rfl
  | trisc t => cases t <;> rfl

@[simp] theorem State.setBriscProgram_draws (s : State) (p : List BriscAction) :
    (s.setBriscProgram p).draws = s.draws := rfl

@[simp] theorem State.countDraw_trisc (s : State) (t : ThreadId) : s.countDraw.trisc t = s.trisc t := by
  cases t <;> rfl

/-! Frames. -/

/-- That BRISC moves past an action and a thread changes is within BRISC's frame. -/
theorem coreFrame_setBriscProgram_setThread (s : State) (u : ThreadId) (rest : List BriscAction) (th : ThreadState) :
    coreFrame .brisc s ((s.setBriscProgram rest).setThread u th) :=
  ⟨fun c => by simp, fun t _ => by simp, fun h => absurd rfl h, by simp [sameControl, State.setBriscProgram]⟩

/-- That a TRISC moves past an action is within its frame. -/
theorem coreFrame_setTriscProgram (s : State) (t : ThreadId) (rest : List TriscAction) :
    coreFrame (.trisc t) s (s.setTriscProgram t rest) := by
  have hframe := coreFrame_setTriscProgram_setThread s t t rest ((s.setTriscProgram t rest).thread t)
  rwa [State.setThread_thread] at hframe

/-- That a TRISC moves past an action and its port changes is within the frame of a CSR access. -/
theorem portFrame_trisc (s : State) (t : ThreadId) (rest : List TriscAction) (p : CorePort) :
    portFrame (.trisc t) s ((s.setTriscProgram t rest).setPort (.trisc t) p) := by
  refine ⟨fun _ => by simp, fun c hc => by simp [hc], fun t' hne => ?_, fun _ => by simp, by simp, by simp, by simp⟩
  have ht : t' ≠ t := fun e => hne (congrArg CoreId.trisc e.symm)
  simp [ht]

/-- The same of BRISC. -/
theorem portFrame_brisc (s : State) (rest : List BriscAction) (p : CorePort) :
    portFrame .brisc s ((s.setBriscProgram rest).setPort .brisc p) :=
  ⟨fun _ => by simp, fun c hc => by simp [hc], fun t' _ => by simp, fun h => absurd rfl h, rfl, rfl, rfl⟩

/-- Counting a drawn value is within the frame of a CSR access. -/
theorem portFrame_countDraw {c : CoreId} {s s' : State} (h : portFrame c s s') : portFrame c s s'.countDraw := by
  obtain ⟨hthreads, hports, htriscs, hbrisc, hcontrol⟩ := h
  exact ⟨fun t => by simp [hthreads], fun c' hc => by simp [hports c' hc], fun t hc => by simp [htriscs t hc], hbrisc,
    hcontrol⟩

/-! A core's turn. -/

theorem coreStep_brisc_of_performBrisc {a : BriscAction} {rest : List BriscAction} {s : State} {r : Result}
    (hp : s.brisc.program = a :: rest) (hr : performBrisc a (s.setBriscProgram rest) = .ok r) :
    coreStep .brisc s = r := by
  simp only [coreStep, attempt, hp, hr]

/-- A TRISC whose next action must wait does nothing at its turn, and says why. -/
theorem trisc_held {t : ThreadId} {a : TriscAction} {rest : List TriscAction} {s : State} {e : Hold}
    (hp : (s.trisc t).program = a :: rest) (hr : performTrisc t a (s.setTriscProgram t rest) = .error e) :
    coreStep (.trisc t) s = .next s ∧ holdOf (.trisc t) s = some e := by
  have hattempt : attempt (.trisc t) s = some (.error e) := by simp only [attempt, hp, hr]
  exact ⟨coreStep_of_attempt_error hattempt, holdOf_of_attempt_error hattempt⟩

theorem writeMopCfg_busy {t : ThreadId} {i : Fin 9} {v : Word} {s : State} (h : (s.thread t).mopBusy = true) :
    writeMopCfg t i v s = .fault .mopCfgWriteDuringExpansion := if_pos h

theorem writeMopCfg_free {t : ThreadId} {i : Fin 9} {v : Word} {s : State} (h : (s.thread t).mopBusy = false) :
    writeMopCfg t i v s = .next (s.setThread t ((s.thread t).setMopCfg i v)) := writeMopCfg_next.2 ⟨h, rfl⟩

theorem mopIdle_iff (th : ThreadState) : mopIdle th = true ↔ th.mopBusy = false ∧ th.fifo = [] := by
  simp [mopIdle]

/-! Stores and loads by their address. -/

theorem wordShape_iff {addr : Word} {width : Nat} : wordShape addr width = true ↔ width = 4 ∧ addr.toNat % 4 = 0 :=
  decide_eq_true_iff

theorem performAccess_storeWindow {addr : Word} (hw : inMopCfgWindow addr = true) (c : CoreId) (width : Nat) (v : Word)
    (s : State) : performAccess c (.store addr width v) s = .ok (storeMopCfgWindow c addr width v s) := by
  simp only [performAccess, performStore, hw, if_true]

theorem performAccess_storeTriscOutside {addr : Word} (hw : inMopCfgWindow addr = false) (t : ThreadId) (width : Nat)
    (v : Word) (s : State) :
    performAccess (.trisc t) (.store addr width v) s = storeTriscOutside t addr width s := by
  simp [performAccess, performStore, hw]

theorem performAccess_storeBriscOutside {addr : Word} (hw : inMopCfgWindow addr = false) (width : Nat) (v : Word)
    (s : State) : performAccess .brisc (.store addr width v) s = .ok (storeBriscOutside addr width v s) := by
  simp [performAccess, performStore, hw]

theorem not_inMopCfgWindow {addr : Word} (h : addr.toNat < 0xFFB80000 ∨ 0xFFB80023 < addr.toNat) :
    inMopCfgWindow addr = false := by
  rw [← Bool.not_eq_true, inMopCfgWindow_iff]
  omega

/-- BRISC's store at an address that reaches a register: shape, then window, then the write (R54, R56). -/
theorem performAccess_briscStore_target {addr : Word} {t : ThreadId} {i : Fin 9}
    (htarget : briscMopCfgTarget addr = some (t, i)) (width : Nat) (v : Word) (s : State) :
    performAccess .brisc (.store addr width v) s =
      if ¬ (width = 4 ∧ addr.toNat % 4 = 0) then .ok (.refused .mopCfgAccessShape)
      else if 0xFFB80000 ≤ addr.toNat ∧ addr.toNat ≤ 0xFFB80023 then .ok (.refused .briscMopCfgWindow)
      else .ok (writeMopCfg t i v s) := by
  simp only [← wordShape_iff, ← inMopCfgWindow_iff]
  cases hw : inMopCfgWindow addr <;> cases hs : wordShape addr width
  · simp [performAccess_storeBriscOutside hw, storeBriscOutside, htarget, hs]
  · simp [performAccess_storeBriscOutside hw, storeBriscOutside, htarget, hs]
  · simp [performAccess_storeWindow hw, storeMopCfgWindow, hs]
  · simp [performAccess_storeWindow hw, storeMopCfgWindow, hs]

theorem briscMopCfgAddr_of_target {addr : Word} {t : ThreadId} {i : Fin 9}
    (htarget : briscMopCfgTarget addr = some (t, i)) : Config.briscMopCfgAddr t i = addr := by
  simpa using List.find?_some htarget

theorem mem_briscTargets (t : ThreadId) (i : Fin 9) : (t, i) ∈ briscTargets := by
  cases t <;> simp [briscTargets]

/-! CSR 0xBC0 (spec/10_state.md R35 to R37). -/

theorem qstatus_getLsbD_0 (s : State) (t : ThreadId) : (qstatus s t).getLsbD 0 = replayBusySeen s t := by
  simp [qstatus, fieldAt_getElem]

theorem qstatus_getLsbD_1 (s : State) (t : ThreadId) : (qstatus s t).getLsbD 1 = (s.thread t).mopBusy := by
  simp [qstatus, fieldAt_getElem]

theorem qstatus_getLsbD_13 (s : State) (t : ThreadId) : (qstatus s t).getLsbD 13 = anyReplayBusy s := by
  simp [qstatus, fieldAt_getElem]

theorem qstatus_getLsbD_14 (s : State) (t : ThreadId) : (qstatus s t).getLsbD 14 = anyMopBusy s := by
  simp [qstatus, fieldAt_getElem]

theorem replayBusySeen_of_not_recording {s : State} {t : ThreadId} (h : (s.thread t).recording = none) :
    replayBusySeen s t = (s.thread t).replayBusy := by
  simp [replayBusySeen, h]

theorem anyMopBusy_eq (s : State) :
    anyMopBusy s = ((s.thread .t0).mopBusy || (s.thread .t1).mopBusy || (s.thread .t2).mopBusy) := rfl

theorem performCsrRead_qstatus (t : ThreadId) (s : State) :
    performCsrRead (.trisc t) 0xBC0 s = .next (returnRead (.trisc t) (qstatus s t) s).countDraw := by
  simp [performCsrRead, Config.qstatusCsr]

/-! CSR 0x7C0 (spec/10_state.md R38). -/

theorem performCsrRead_gather (c : CoreId) (s : State) :
    performCsrRead c 0x7C0 s = .next (returnRead c (Config.gatherCsrValue s.draws) s).countDraw := by
  simp [performCsrRead, Config.qstatusCsr, Config.gatherCsr]

theorem performCsrWrite_gather (c : CoreId) (v : Word) (s : State) :
    performCsrWrite c 0x7C0 v s = .next (s.setPort c { s.port c with gathering := v.getLsbD 18 }) := by
  simp [performCsrWrite, Config.gatherCsr, Config.gatherBit]

/-! The statements. -/

/-- Settles O33: the action is `pushWord`, which looks at the FIFO's length. -/
theorem pushEntersOwnFifoOrIsHeld : Obligations.PushEntersOwnFifoOrIsHeld := by
  refine fun s t w rest hp => ⟨fun hlength => ?_, fun hlength => ?_⟩
  · have hpush : performTrisc t (.push w) (s.setTriscProgram t rest) =
        .ok (.next ((s.setTriscProgram t rest).setThread t ((s.thread t).pushFifo w))) :=
      pushWord_ok.2 ⟨by simpa [Config.fifoDepth] using hlength, by simp⟩
    refine ⟨_, coreStep_trisc_of_performTrisc hp hpush, State.thread_setThread_same _ _ _,
      fun t' hne => by simp [hne], by simp, coreFrame_setTriscProgram_setThread s t t rest _⟩
  · refine trisc_held hp (if_neg ?_)
    simpa [Config.fifoDepth] using hlength

/-- Settles O35: all three stores come to `writeMopCfg` on a busy thread. -/
theorem mopCfgStoreDuringExpansionFaults : Obligations.MopCfgStoreDuringExpansionFaults := by
  refine ⟨fun s t i v rest hp hbusy => ?_, fun s t i v rest hp hbusy => ?_, fun s t i addr width v htarget hbusy => ?_⟩
  · rw [coreStep_storeRegister hp]
    exact writeMopCfg_busy (by simpa using hbusy)
  · exact coreStep_brisc_of_performBrisc hp (congrArg Except.ok (writeMopCfg_busy (by simpa using hbusy)))
  · rw [performAccess_briscStore_target htarget, writeMopCfg_busy hbusy]

/-- Settles O37: the shape is looked at before the core. -/
theorem windowStoresRefusedInOrder : Obligations.WindowStoresRefusedInOrder := by
  intro s addr width v hlo hhi
  have hw := inMopCfgWindow_iff.2 ⟨hlo, hhi⟩
  refine ⟨fun hshape c => ?_, fun hshape => ?_⟩
  · simp [performAccess_storeWindow hw, storeMopCfgWindow, wordShape_iff, hshape]
  · simp [performAccess_storeWindow hw, storeMopCfgWindow, wordShape_iff, hshape]

/-- Settles O38: outside the window each core's store is looked up among the addresses it has, and a load has none. -/
theorem undescribedAddressesRefused : Obligations.UndescribedAddressesRefused := by
  intro s addr width v hout
  have hw := not_inMopCfgWindow hout
  refine ⟨fun hsync t => ?_, fun hbrisc => ?_, fun c => ?_⟩
  · rw [performAccess_storeTriscOutside hw]
    exact if_neg hsync
  · have htarget : briscMopCfgTarget addr = none := by simp [briscMopCfgTarget, hbrisc]
    rw [performAccess_storeBriscOutside hw, storeBriscOutside, htarget]
  · simp [performAccess, performLoad, hw]

/-- Settles O39: `mop_sync` asks for idleness alone, and the store at its address is looked at as a window store
first. -/
theorem mopSyncWaitsForIdle : Obligations.MopSyncWaitsForIdle := by
  refine ⟨fun s t v rest hp => ⟨fun hbusy hfifo => ?_, fun hnot => ?_⟩, fun s t width v => ?_⟩
  · have hsync : performTrisc t (.mopSync v) (s.setTriscProgram t rest) = .ok (.next (s.setTriscProgram t rest)) :=
      performMopSync_ok.2 ⟨by simp [mopIdle_iff, hbusy, hfifo], rfl⟩
    exact ⟨_, coreStep_trisc_of_performTrisc hp hsync, fun t' => by simp, by simp, coreFrame_setTriscProgram s t rest⟩
  · refine trisc_held hp (if_neg ?_)
    rw [State.setTriscProgram_thread, mopIdle_iff]
    rintro ⟨hbusy, hfifo⟩
    simp [hbusy, hfifo] at hnot
  · simp only [← inMopCfgWindow_iff, ← wordShape_iff]
    cases hw : inMopCfgWindow (Config.pcBufBase + 8) with
    | true => exact performAccess_storeWindow hw _ width v s
    | false =>
      rw [performAccess_storeTriscOutside hw, storeTriscOutside, if_pos (by rfl)]
      rfl

/-- Settles O40: each of the four bits is a field of its own, which the mask keeps the free bits from. -/
theorem qstatusReportsTheBusyFlags : Obligations.QstatusReportsTheBusyFlags := by
  intro s t rest hp
  obtain ⟨s1, hs1⟩ : ∃ s1, s1 = s.setTriscProgram t rest := ⟨_, rfl⟩
  have hthread : ∀ t', s1.thread t' = s.thread t' := fun t' => by simp [hs1]
  have hport : ∀ c, s1.port c = s.port c := fun c => by simp [hs1]
  have hstep : coreStep (.trisc t) s = .next (returnRead (.trisc t) (qstatus s1 t) s1).countDraw :=
    coreStep_trisc_of_performTrisc hp (hs1 ▸ congrArg Except.ok (performCsrRead_qstatus t _))
  refine ⟨_, qstatus s1 t, replayBusySeen s1, hstep, by simp [returnRead, hport], fun t' hrec => ?_,
    qstatus_getLsbD_0 s1 t, ?_, qstatus_getLsbD_13 s1 t, ?_, fun t' => by simp [hthread], ?_,
    by simp [returnRead, hport], fun c hc => by simp [returnRead, hport, hc]⟩
  · rw [replayBusySeen_of_not_recording (by rw [hthread, hrec]), hthread]
  · rw [qstatus_getLsbD_1, hthread]
  · rw [qstatus_getLsbD_14, anyMopBusy_eq, hthread, hthread, hthread]
  · simp [returnRead, hs1]

/-- Settles O41: a push enters PostMop, a write or a store at BRISC's own address is `writeMopCfg`, and the lookup of
one of the 27 addresses finds it or an earlier equal one. -/
theorem briscActsAfterTheMopExpander : Obligations.BriscActsAfterTheMopExpander := by
  refine ⟨fun s t w rest hp => ?_, fun s t i v rest hp hbusy => ?_, fun s t i addr width v htarget => ?_, fun t i => ?_⟩
  · refine ⟨_, coreStep_brisc_of_performBrisc hp rfl, ?_, fun t' hne => by simp [hne], by simp,
      coreFrame_setBriscProgram_setThread s t rest _⟩
    simp [ThreadState.pushPostMop]
  · have hwrite := writeMopCfg_free (i := i) (v := v) (s := s.setBriscProgram rest) (t := t) (by simpa using hbusy)
    refine ⟨_, coreStep_brisc_of_performBrisc hp (congrArg Except.ok hwrite), ?_, fun t' hne => by simp [hne], by simp,
      coreFrame_setBriscProgram_setThread s t rest _⟩
    simp [ThreadState.setMopCfg]
  · exact ⟨briscMopCfgAddr_of_target htarget, performAccess_briscStore_target htarget width v s⟩
  · refine Option.isSome_iff_exists.1 (List.find?_isSome.2 ⟨(t, i), mem_briscTargets t i, ?_⟩)
    simp

/-- Settles O42: the number is compared with the two described CSRs, then with the TTSync CSR's. -/
theorem csrAccessesRefusedByName : Obligations.CsrAccessesRefusedByName := by
  refine fun s => ⟨by simp [performAccess, performCsrRead, Config.qstatusCsr], fun c => rfl, fun csr hq hg c v => ?_,
    fun c v => by simp [performAccess, performCsrWrite, Config.qstatusCsr, Config.gatherCsr]⟩
  by_cases hsync : csr = Config.ttSyncCsr
  · simp [performAccess, performCsrRead, performCsrWrite, Config.qstatusCsr, Config.gatherCsr, hq, hg, ← hsync]
  · simp [performAccess, performCsrRead, performCsrWrite, Config.qstatusCsr, Config.gatherCsr, hq, hg, hsync]

/-- Settles O57: a read appends to the port's reads, a write replaces the port's bit, and both are within the port's
frame. -/
theorem gatherCsrAccessesComplete : Obligations.GatherCsrAccessesComplete := by
  refine ⟨fun s t rest hp => ?_, fun s t v rest hp => ?_, fun s rest hp => ?_, fun s v rest hp => ?_⟩
  · refine ⟨_, Config.gatherCsrValue s.draws,
      coreStep_trisc_of_performTrisc hp (congrArg Except.ok (performCsrRead_gather _ _)), ?_, ?_,
      portFrame_countDraw (portFrame_trisc s t rest _)⟩
    · simp [returnRead]
    · simp [returnRead]
  · refine ⟨_, coreStep_trisc_of_performTrisc hp (congrArg Except.ok (performCsrWrite_gather _ v _)), by simp, by simp,
      by simp, portFrame_trisc s t rest _⟩
  · refine ⟨_, Config.gatherCsrValue s.draws,
      coreStep_brisc_of_performBrisc hp (congrArg Except.ok (performCsrRead_gather _ _)), ?_, ?_,
      portFrame_countDraw (portFrame_brisc s rest _)⟩
    · exact State.setPort_brisc_program _ _ _
    · simp [returnRead]
  · refine ⟨_, coreStep_brisc_of_performBrisc hp (congrArg Except.ok (performCsrWrite_gather _ v _)), by simp, by simp,
      by simp, portFrame_brisc s rest _⟩

end Sys2Proof.Machine
end

section
/-! What a turn can do to a thread, told as moves, and what every move keeps: the invariant of spec/10_state.md, and
which of the thread's registers change only how (spec/42_passthrough_and_composition.md R201). -/

namespace Sys2Proof.Machine

open Sys2Proof.Safety

/-! Moves. -/

/-- What a turn of the MOP Expander can do to its thread: emit one pending word, or take one word. -/
inductive MopMove (th : ThreadState) : ThreadState → Prop where
  | emit {w : Word} {rest : List Word} : th.mopPending = w :: rest → MopMove th th.emitMop
  | expand {w : Word} {rest : List Word} {template : Template} {c : BitVec 7} {m : BitVec 16} :
      th.mopPending = [] → th.fifo = w :: rest → decode w = .mop template c m →
      MopMove th ((th.setFifo rest).startExpansion (expandMop template c m th.maskHi th.mopCfg))
  | mask {w : Word} {rest : List Word} {r : BitVec 8} {h : BitVec 16} :
      th.mopPending = [] → th.fifo = w :: rest → decode w = .mopCfg r h → MopMove th ((th.setFifo rest).setMaskHi h)
  | pass {w : Word} {rest : List Word} :
      th.mopPending = [] → th.fifo = w :: rest → (∀ template c m, decode w ≠ .mop template c m) →
      (∀ r h, decode w ≠ .mopCfg r h) → MopMove th ((th.setFifo rest).pushPostMop w)

/-- What a turn of the Replay Expander can do to its thread: deliver one pending word, or take one word. -/
inductive ReplayMove (th : ThreadState) : ThreadState → Prop where
  | emit {w : Word} {rest : List Word} :
      th.playPending = w :: rest → isExpanderOpcode w = false → ReplayMove th ((th.popPlayback rest).appendOut w)
  | capture {w : Word} {rest : List Word} {r : Recording} :
      th.playPending = [] → th.postMop = w :: rest → th.recording = some r → r.exec = false →
      ReplayMove th ((th.setPostMop rest).capture r w)
  | captureAndDeliver {w : Word} {rest : List Word} {r : Recording} :
      th.playPending = [] → th.postMop = w :: rest → th.recording = some r → r.exec = true →
      isExpanderOpcode w = false → ReplayMove th (((th.setPostMop rest).capture r w).appendOut w)
  | deliver {w : Word} {rest : List Word} :
      th.playPending = [] → th.postMop = w :: rest → th.recording = none → isExpanderOpcode w = false →
      ReplayMove th ((th.setPostMop rest).appendOut w)
  | record {w : Word} {rest : List Word} {a b : BitVec 10} {x : BitVec 2} {e : Bool} :
      th.playPending = [] → th.postMop = w :: rest → th.recording = none → decode w = .replay a b x e true →
      ReplayMove th ((th.setPostMop rest).startRecording (replayIndex a) (replayCount b) e)
  | play {w : Word} {rest : List Word} {a b : BitVec 10} {x : BitVec 2} {e : Bool} :
      th.playPending = [] → th.postMop = w :: rest → th.recording = none → decode w = .replay a b x e false →
      ReplayMove th ((th.setPostMop rest).startPlayback (replayIndex a) (replayCount b))

/-- No core is touched. -/
def sameCores (s s' : State) : Prop := (∀ t, s'.trisc t = s.trisc t) ∧ s'.brisc = s.brisc

theorem sameCores_setThread (s : State) (t : ThreadId) (th : ThreadState) : sameCores s (s.setThread t th) :=
  ⟨fun t' => by simp, by simp⟩

/-- A turn of MOP Expander t changes thread t alone, by a move of the unit's. -/
theorem mopStep_move {t : ThreadId} {s s' : State} (h : mopStep t s = .next s') :
    sameThreadsBut t s s' ∧ sameCores s s' ∧
      (s'.thread t = s.thread t ∨ MopMove (s.thread t) (s'.thread t)) := by
  obtain ⟨hstep, -, -⟩ | ⟨hstep, hpending⟩ | ⟨w, rest, th', hpending, hfifo, hstep, hcase⟩ := mopStep_next t s <;>
    rw [hstep, Host.Outcome.next.injEq] at h <;> subst h
  · exact ⟨fun _ _ => rfl, ⟨fun _ => rfl, rfl⟩, .inl rfl⟩
  · obtain ⟨w, rest, hcons⟩ := List.exists_cons_of_ne_nil hpending
    refine ⟨fun t' hne => by simp [hne], sameCores_setThread s t _, .inr ?_⟩
    rw [State.thread_setThread_same]
    exact .emit hcons
  · refine ⟨fun t' hne => by simp [hne], ⟨fun t' => by simp, by simp⟩, .inr ?_⟩
    rw [State.setSite_thread, State.thread_setThread_same]
    obtain ⟨tm, c, m, hd, rfl⟩ | ⟨r, mh, hd, rfl⟩ | ⟨hmop, hcfg, rfl⟩ := hcase
    · exact .expand hpending hfifo hd
    · exact .mask hpending hfifo hd
    · rw [encode_decode]
      exact .pass hpending hfifo hmop hcfg

/-- A turn of Replay Expander t that completes changes thread t alone, by a move of the unit's. -/
theorem replayStep_move {t : ThreadId} {s s' : State} (h : replayStep t s = .next s') :
    sameThreadsBut t s s' ∧ sameCores s s' ∧
      (s'.thread t = s.thread t ∨ ReplayMove (s.thread t) (s'.thread t)) := by
  obtain ⟨rfl, -, -⟩ | ⟨w, rest, hpending, hw, rfl⟩ | ⟨w, rest, hpending, hinput, hexec⟩ := replayStep_next h
  · exact ⟨fun _ _ => rfl, ⟨fun _ => rfl, rfl⟩, .inl rfl⟩
  · refine ⟨fun t' hne => by simp [hne], sameCores_setThread s t _, .inr ?_⟩
    rw [State.thread_setThread_same]
    exact .emit hpending hw
  · obtain ⟨th', rfl, hcase⟩ := exec_replayExpander (t := t) rfl hexec
    refine ⟨fun t' hne => by simp [hne], ⟨fun t' => by simp, by simp⟩, .inr ?_⟩
    rw [State.thread_setThread_same]
    simp only [State.setSite_thread, State.thread_setThread_same, ThreadState.setPostMop_recording,
      encode_decode] at hcase
    obtain ⟨r, hrec, he, rfl⟩ | ⟨r, hrec, he, hw, rfl⟩ | ⟨hrec, hw, -, rfl⟩ | ⟨a, b, x, e, hrec, hd, rfl⟩ |
      ⟨a, b, x, e, hrec, hd, rfl⟩ := hcase
    · exact .capture hpending hinput hrec he
    · exact .captureAndDeliver hpending hinput hrec he hw
    · exact .deliver hpending hinput hrec hw
    · exact .record hpending hinput hrec hd
    · exact .play hpending hinput hrec hd

/-- A unit's turn leaves the cores, and leaves every thread but its own, which it leaves or moves. -/
theorem expanderStep_move {site : Site} {s s' : State} (h : expanderStep site s = .next s') (t : ThreadId) :
    sameCores s s' ∧ (s'.thread t = s.thread t ∨
      (site = ⟨t, .mopExpander⟩ ∧ MopMove (s.thread t) (s'.thread t)) ∨
      (site = ⟨t, .replayExpander⟩ ∧ ReplayMove (s.thread t) (s'.thread t))) := by
  obtain ⟨u, stage⟩ := site
  cases stage with
  | mopExpander =>
    obtain ⟨hothers, hcores, hown⟩ := mopStep_move h
    refine ⟨hcores, ?_⟩
    by_cases ht : t = u
    · subst ht
      exact hown.imp_right fun hmove => .inl ⟨rfl, hmove⟩
    · exact .inl (hothers t ht)
  | replayExpander =>
    obtain ⟨hothers, hcores, hown⟩ := replayStep_move h
    refine ⟨hcores, ?_⟩
    by_cases ht : t = u
    · subst ht
      exact hown.imp_right fun hmove => .inr ⟨rfl, hmove⟩
    · exact .inl (hothers t ht)

/-! What the moves leave alone. -/

theorem MopMove.mopCfg {th th' : ThreadState} (h : MopMove th th') : th'.mopCfg = th.mopCfg := by
  cases h with
  | emit hpending => rw [ThreadState.emitMop_cons _ _ _ hpending]
  | expand | mask | pass => rfl

theorem MopMove.replayBuf {th th' : ThreadState} (h : MopMove th th') : th'.replayBuf = th.replayBuf := by
  cases h with
  | emit hpending => rw [ThreadState.emitMop_cons _ _ _ hpending]
  | expand | mask | pass => rfl

theorem ReplayMove.mopCfg {th th' : ThreadState} (h : ReplayMove th th') : th'.mopCfg = th.mopCfg := by
  cases h <;> rfl

theorem ReplayMove.maskHi {th th' : ThreadState} (h : ReplayMove th th') : th'.maskHi = th.maskHi := by
  cases h <;> rfl

/-- Only the take of a MOP_CFG changes MaskHi (R26). -/
theorem MopMove.maskHi {th th' : ThreadState} (h : MopMove th th') : th'.maskHi = th.maskHi ∨
    th.mopPending = [] ∧ ∃ w rest r, th.fifo = w :: rest ∧ decode w = .mopCfg r th'.maskHi := by
  cases h with
  | emit hpending => exact .inl (by rw [ThreadState.emitMop_cons _ _ _ hpending])
  | expand | pass => exact .inl rfl
  | mask hpending hfifo hd => exact .inr ⟨hpending, _, _, _, hfifo, hd⟩

/-- Only a capture changes the replay buffer (R29). -/
theorem ReplayMove.replayBuf {th th' : ThreadState} (h : ReplayMove th th') : th'.replayBuf = th.replayBuf ∨
    th.playPending = [] ∧ ∃ r w rest, th.recording = some r ∧ th.postMop = w :: rest ∧
      th'.replayBuf = th.replayBuf.set (replaySlot r.base r.i) w := by
  cases h with
  | emit | deliver | record | play => exact .inl rfl
  | capture hpending hinput hrec => exact .inr ⟨hpending, _, _, _, hrec, hinput, rfl⟩
  | captureAndDeliver hpending hinput hrec => exact .inr ⟨hpending, _, _, _, hrec, hinput, rfl⟩

/-- No core's turn changes what the units alone hold. -/
theorem coreStep_units {c : CoreId} {s s' : State} (h : coreStep c s = .next s') (t : ThreadId) :
    (s'.thread t).maskHi = (s.thread t).maskHi ∧ (s'.thread t).replayBuf = (s.thread t).replayBuf := by
  obtain hth | ⟨w, -, -, hth⟩ | ⟨w, rest, -, -, hth⟩ | ⟨i, v, -, -, hth⟩ := coreStep_thread h t <;> rw [hth] <;>
    exact ⟨rfl, rfl⟩

theorem mopCfg_maskHi_of_decode {w : Word} {r : BitVec 8} {h : BitVec 16} (hd : decode w = .mopCfg r h) :
    opcodeOf w = 0x03#8 ∧ h = w.extractLsb' 0 16 := by
  have hop : opcodeOf w = 0x03#8 := opcodeOf_of_decode hd
  have hmodel := mopModel_of_mopCfg hd (Vector.replicate 9 0) 0
  simp only [mopModel, hop, if_true, Prod.mk.injEq] at hmodel
  exact ⟨hop, hmodel.2.symm⟩

/-! The invariant (spec/10_state.md R23, R28, R31 to R33). -/

theorem recordingOk_of_advance {r r' : Recording} (h : r.advance = some r') (hok : recordingOk r) : recordingOk r' := by
  obtain ⟨hpos, hmax, hi⟩ := hok
  unfold Recording.advance at h
  split at h
  · cases h
  · cases h
    exact ⟨hpos, hmax, by change r.i + 1 < r.n; omega⟩

theorem MopMove.threadInv {th th' : ThreadState} (h : MopMove th th') (hinv : ThreadInv th) : ThreadInv th' := by
  obtain ⟨hfifo, hbound, hbusy, hplay, hreplay, hmode, hrec, hout⟩ := hinv
  cases h with
  | emit hpending =>
    rw [ThreadState.emitMop_cons _ _ _ hpending]
    rw [hpending, List.length_cons] at hbound
    exact ⟨hfifo, Nat.le_of_succ_le hbound, rfl, hplay, hreplay, hmode, hrec, hout⟩
  | expand hpending hhead hd =>
    rw [hhead, List.length_cons] at hfifo
    exact ⟨Nat.le_of_succ_le hfifo, expandMop_length_le _ _ _ _ _, rfl, hplay, hreplay, hmode, hrec, hout⟩
  | mask hpending hhead hd =>
    rw [hhead, List.length_cons] at hfifo
    exact ⟨Nat.le_of_succ_le hfifo, hbound, hbusy, hplay, hreplay, hmode, hrec, hout⟩
  | pass hpending hhead =>
    rw [hhead, List.length_cons] at hfifo
    exact ⟨Nat.le_of_succ_le hfifo, hbound, hbusy, hplay, hreplay, hmode, hrec, hout⟩

/-- A word that may be delivered keeps `Out` clean (spec/30_encoding.md R93). -/
theorem out_clean_append {out : List Word} {w : Word} (hout : ∀ x ∈ out, isExpanderOpcode x = false)
    (hw : isExpanderOpcode w = false) : ∀ x ∈ out ++ [w], isExpanderOpcode x = false := by
  intro x hx
  obtain hx | hx := List.mem_append.1 hx
  · exact hout x hx
  · rw [List.mem_singleton.1 hx]
    exact hw

theorem ReplayMove.threadInv {th th' : ThreadState} (h : ReplayMove th th') (hinv : ThreadInv th) :
    ThreadInv th' := by
  obtain ⟨hfifo, hbound, hbusy, hplay, hreplay, hmode, hrec, hout⟩ := hinv
  cases h with
  | emit hpending hw =>
    have hnone : th.recording = none := hmode (by simp [hpending])
    rw [hpending, List.length_cons] at hplay
    exact ⟨hfifo, hbound, hbusy, Nat.le_of_succ_le hplay, rfl, fun _ => hnone, hrec, out_clean_append hout hw⟩
  | capture hpending hinput hr =>
    exact ⟨hfifo, hbound, hbusy, hplay, hreplay, fun hne => absurd hpending hne,
      fun r' h => recordingOk_of_advance h (hrec _ hr), hout⟩
  | captureAndDeliver hpending hinput hr he hw =>
    exact ⟨hfifo, hbound, hbusy, hplay, hreplay, fun hne => absurd hpending hne,
      fun r' h => recordingOk_of_advance h (hrec _ hr), out_clean_append hout hw⟩
  | deliver hpending hinput hr hw =>
    exact ⟨hfifo, hbound, hbusy, hplay, hreplay, hmode, hrec, out_clean_append hout hw⟩
  | @record w rest a b x e hpending hinput hr hd =>
    refine ⟨hfifo, hbound, hbusy, hplay, hreplay, fun hne => absurd hpending hne, fun r h => ?_, hout⟩
    rw [ThreadState.startRecording_recording, Option.some.injEq] at h
    subst h
    exact ⟨replayCount_pos b, replayCount_le b, replayCount_pos b⟩
  | @play w rest a b x e hpending hinput hr hd =>
    refine ⟨hfifo, hbound, hbusy, ?_, rfl, fun _ => hr, hrec, hout⟩
    rw [ThreadState.startPlayback_playPending, playbackWords_length]
    exact replayCount_le b

theorem threadInv_pushFifo {th : ThreadState} (hinv : ThreadInv th) (h : th.fifo.length < Config.fifoDepth)
    (w : Word) : ThreadInv (th.pushFifo w) :=
  { hinv with fifoDepth := by rw [ThreadState.pushFifo_fifo, List.length_append]; exact h }

theorem threadInv_pushPostMop {th : ThreadState} (hinv : ThreadInv th) (w : Word) : ThreadInv (th.pushPostMop w) :=
  { hinv with }

theorem threadInv_setMopCfg {th : ThreadState} (hinv : ThreadInv th) (i : Fin 9) (v : Word) :
    ThreadInv (th.setMopCfg i v) :=
  { hinv with }

/-- Every agent's turn keeps the invariant. -/
theorem agentStep_inv {a : Agent} {s s' : State} (hinv : Inv s) (h : agentStep a s = .next s') : Inv s' := by
  intro t
  cases a with
  | core c =>
    obtain hsame | ⟨w, -, hlength, hpush⟩ | ⟨w, rest, -, -, hpush⟩ | ⟨i, v, -, -, hset⟩ := coreStep_thread h t
    · exact hsame ▸ hinv t
    · exact hpush ▸ threadInv_pushFifo (hinv t) hlength w
    · exact hpush ▸ threadInv_pushPostMop (hinv t) w
    · exact hset ▸ threadInv_setMopCfg (hinv t) i v
  | expander site =>
    obtain ⟨-, hsame | ⟨-, hmove⟩ | ⟨-, hmove⟩⟩ := expanderStep_move h t
    · exact hsame ▸ hinv t
    · exact hmove.threadInv (hinv t)
    · exact hmove.threadInv (hinv t)

theorem threadInv_reset : ThreadInv ThreadState.reset where
  fifoDepth := Nat.zero_le _
  pendingBound := Nat.zero_le _
  mopBusy := rfl
  playbackBound := Nat.zero_le _
  replayBusy := rfl
  oneMode := fun _ => rfl
  recording := fun _ h => nomatch h
  outClean := fun _ h => nomatch h

/-! The statements. -/

/-- Settles O45: every thread starts as `ThreadState.reset`. -/
theorem resetStateOfTheThreads : Obligations.ResetStateOfTheThreads := by
  intro t
  cases t <;> exact ⟨rfl, rfl, rfl, rfl, rfl, rfl, rfl, rfl, rfl⟩

/-- Settles O46: every thread starts as `ThreadState.reset`, which meets the invariant. -/
theorem resetMeetsTheInvariant : Obligations.ResetMeetsTheInvariant := by
  intro t
  cases t <;> exact threadInv_reset

/-- Settles O47: a step is an agent's turn, and every move a turn can make keeps the thread's invariant. -/
theorem stepKeepsTheInvariant : Obligations.StepKeepsTheInvariant := by
  intro s s' hinv h
  obtain ⟨a, s1, hstep, hthread, -, -⟩ := step_eq s
  exact agentStep_inv (fun t => (hthread t).symm ▸ hinv t) (hstep ▸ h)

/-- Settles O48: no move of a unit touches MopCfg, and of what a core can do to a thread only the store does. -/
theorem mopCfgChangesOnlyByStores : Obligations.MopCfgChangesOnlyByStores := by
  intro a s s' t h hne
  cases a with
  | core c =>
    obtain hsame | ⟨w, -, -, hpush⟩ | ⟨w, rest, -, -, hpush⟩ | ⟨i, v, hstore, hbusy, hset⟩ := coreStep_thread h t
    · exact absurd (by rw [hsame]) hne
    · exact absurd (by rw [hpush]; rfl) hne
    · exact absurd (by rw [hpush]; rfl) hne
    · exact ⟨hbusy, c, i, v, rfl, hstore, by rw [hset]; rfl⟩
  | expander site =>
    obtain ⟨-, hsame | ⟨-, hmove⟩ | ⟨-, hmove⟩⟩ := expanderStep_move h t
    · exact absurd (by rw [hsame]) hne
    · exact absurd hmove.mopCfg hne
    · exact absurd hmove.mopCfg hne

/-- Settles O49: of all moves only the take of a MOP_CFG touches MaskHi. -/
theorem maskHiChangesOnlyByMopCfg : Obligations.MaskHiChangesOnlyByMopCfg := by
  intro a s s' t h hne
  cases a with
  | core c => exact absurd (coreStep_units h t).1 hne
  | expander site =>
    obtain ⟨-, hsame | ⟨rfl, hmove⟩ | ⟨-, hmove⟩⟩ := expanderStep_move h t
    · exact absurd (by rw [hsame]) hne
    · obtain hkept | ⟨hpending, w, rest, r, hfifo, hd⟩ := hmove.maskHi
      · exact absurd hkept hne
      · obtain ⟨hop, hmask⟩ := mopCfg_maskHi_of_decode hd
        exact ⟨rfl, hpending, w, rest, hfifo, hop, hmask⟩
    · exact absurd hmove.maskHi hne

/-- Settles O50: of all moves only a capture touches the buffer. -/
theorem replayBufChangesOnlyByRecording : Obligations.ReplayBufChangesOnlyByRecording := by
  intro a s s' t h hne
  cases a with
  | core c => exact absurd (coreStep_units h t).2 hne
  | expander site =>
    obtain ⟨-, hsame | ⟨-, hmove⟩ | ⟨rfl, hmove⟩⟩ := expanderStep_move h t
    · exact absurd (by rw [hsame]) hne
    · exact absurd hmove.replayBuf hne
    · obtain hkept | ⟨hpending, r, w, rest, hrec, hinput, hbuf⟩ := hmove.replayBuf
      · exact absurd hkept hne
      · exact ⟨rfl, hpending, r, w, rest, hrec, hinput, hbuf⟩

end Sys2Proof.Machine
end

section
/-! What a thread comes to: every turn of a unit keeps it, and every turn of a core that does not disturb the thread
(spec/42_passthrough_and_composition.md R196, R202, R204). -/

namespace Sys2Proof.Machine

open Sys2Proof.Safety

/-! The units. -/

/-- What the MOP Expander has not done yet is counted by `F_mop` as it is done. -/
theorem MopMove.settled {th th' : ThreadState} (h : MopMove th th') : th'.settled = th.settled := by
  cases h with
  | emit hpending => simp [ThreadState.settled, ThreadState.emitMop_cons _ _ _ hpending, hpending]
  | expand hpending hfifo hd => simp [ThreadState.settled, hpending, hfifo, mopStream, mopModel_of_mop hd]
  | mask hpending hfifo hd => simp [ThreadState.settled, hpending, hfifo, mopStream, mopModel_of_mopCfg hd]
  | pass hpending hfifo hmop hcfg =>
    simp [ThreadState.settled, hpending, hfifo, mopStream, mopModel_of_other hmop hcfg]

/-- What the Replay Expander has not done yet is counted by `F_replay` as it is done. -/
theorem ReplayMove.settled {th th' : ThreadState} (h : ReplayMove th th') : th'.settled = th.settled := by
  cases h with
  | emit hpending => simp [ThreadState.settled, hpending]
  | capture hpending hinput hrec he =>
    simp [ThreadState.settled, hpending, hinput, replayStream, replayModel_of_recording, hrec, he]
  | captureAndDeliver hpending hinput hrec he =>
    simp [ThreadState.settled, hpending, hinput, replayStream, replayModel_of_recording, hrec, he]
  | @deliver w rest hpending hinput hrec hw =>
    have hop : opcodeOf w ≠ 0x04#8 := fun hop => (isExpanderOpcode_eq_false_iff w).1 hw (by simp [hop])
    simp [ThreadState.settled, hpending, hinput, replayStream, replayModel_of_not_replay, hrec, hop]
  | record hpending hinput hrec hd =>
    simp [ThreadState.settled, hpending, hinput, replayStream, hrec, replayModel_of_replay _ hd]
  | play hpending hinput hrec hd =>
    simp [ThreadState.settled, hpending, hinput, replayStream, hrec, replayModel_of_replay _ hd]

theorem expanderStep_settled {site : Site} {s s' : State} (h : expanderStep site s = .next s') (t : ThreadId) :
    (s'.thread t).settled = (s.thread t).settled := by
  obtain ⟨-, hsame | ⟨-, hmove⟩ | ⟨-, hmove⟩⟩ := expanderStep_move h t
  · rw [hsame]
  · exact hmove.settled
  · exact hmove.settled

theorem expanderStep_mopCfg {site : Site} {s s' : State} (h : expanderStep site s = .next s') (t : ThreadId) :
    (s'.thread t).mopCfg = (s.thread t).mopCfg := by
  obtain ⟨-, hsame | ⟨-, hmove⟩ | ⟨-, hmove⟩⟩ := expanderStep_move h t
  · rw [hsame]
  · exact hmove.mopCfg
  · exact hmove.mopCfg

theorem quiescent_iff (th : ThreadState) : th.quiescent = true ↔
    th.fifo = [] ∧ th.mopPending = [] ∧ th.postMop = [] ∧ th.playPending = [] := by
  simp [ThreadState.quiescent, and_assoc]

/-- A thread with nothing in its queues has come to what it holds (R204). -/
theorem settled_of_quiescent {th : ThreadState} (h : th.quiescent = true) :
    th.settled = (th.out, th.maskHi, { buf := th.replayBuf, recording := th.recording }) := by
  obtain ⟨hfifo, hmop, hpost, hplay⟩ := (quiescent_iff th).1 h
  simp [ThreadState.settled, hfifo, hmop, hpost, hplay, mopStream, replayStream]

/-! The cores' programs. -/

/-- No core has more or other actions to come. -/
def samePrograms (s s' : State) : Prop :=
  (∀ t, (s'.trisc t).program = (s.trisc t).program) ∧ s'.brisc.program = s.brisc.program

theorem samePrograms_setThread (s : State) (t : ThreadId) (th : ThreadState) : samePrograms s (s.setThread t th) :=
  ⟨fun t' => by simp, by simp⟩

theorem samePrograms_setPort (s : State) (c : CoreId) (p : CorePort) : samePrograms s (s.setPort c p) :=
  ⟨fun t' => by simp, by simp⟩

theorem samePrograms_countDraw {s s' : State} (h : samePrograms s s') : samePrograms s s'.countDraw :=
  ⟨fun t => by simpa using h.1 t, h.2⟩

theorem samePrograms_of_sameCores {s s' : State} (h : sameCores s s') : samePrograms s s' :=
  ⟨fun t => by rw [h.1 t], by rw [h.2]⟩

theorem writeMopCfg_samePrograms {t : ThreadId} {i : Fin 9} {v : Word} {s s' : State}
    (h : writeMopCfg t i v s = .next s') : samePrograms s s' := by
  obtain ⟨-, rfl⟩ := writeMopCfg_next.1 h
  exact samePrograms_setThread s t _

theorem performMopSync_samePrograms {t : ThreadId} {s s' : State} (h : performMopSync t s = .ok (.next s')) :
    samePrograms s s' := by
  obtain ⟨-, rfl⟩ := performMopSync_ok.1 h
  exact ⟨fun _ => rfl, rfl⟩

theorem performStore_samePrograms {c : CoreId} {addr : Word} {width : Nat} {v : Word} {s s' : State}
    (h : performStore c addr width v s = .ok (.next s')) : samePrograms s s' := by
  unfold performStore at h
  split at h
  · unfold storeMopCfgWindow at h
    split at h
    · cases c with
      | trisc t => exact writeMopCfg_samePrograms (Except.ok.inj h)
      | brisc => cases Except.ok.inj h
    · cases Except.ok.inj h
  · cases c with
    | trisc t =>
      dsimp only [storeTriscOutside] at h
      split at h
      · split at h
        · exact performMopSync_samePrograms h
        · cases Except.ok.inj h
      · cases Except.ok.inj h
    | brisc =>
      dsimp only [storeBriscOutside] at h
      split at h
      · split at h
        · exact writeMopCfg_samePrograms (Except.ok.inj h)
        · cases Except.ok.inj h
      · cases Except.ok.inj h

theorem performCsrRead_samePrograms {c : CoreId} {csr : Nat} {s s' : State}
    (h : performCsrRead c csr s = .next s') : samePrograms s s' := by
  unfold performCsrRead at h
  split at h
  · cases c with
    | trisc t =>
      cases h
      exact samePrograms_countDraw (samePrograms_setPort s _ _)
    | brisc => cases h
  · split at h
    · cases h
      exact samePrograms_countDraw (samePrograms_setPort s _ _)
    · split at h <;> cases h

theorem performCsrWrite_samePrograms {c : CoreId} {csr : Nat} {v : Word} {s s' : State}
    (h : performCsrWrite c csr v s = .next s') : samePrograms s s' := by
  unfold performCsrWrite at h
  split at h
  · cases h
    exact samePrograms_setPort s _ _
  · split at h
    · cases h
    · split at h <;> cases h

/-- An access is done in a machine whose core has moved past it already, and moves no core on. -/
theorem performAccess_samePrograms {c : CoreId} {a : CoreAccess} {s s' : State}
    (h : performAccess c a s = .ok (.next s')) : samePrograms s s' := by
  cases a with
  | store addr width v => exact performStore_samePrograms h
  | load addr width =>
    have hload := Except.ok.inj h
    unfold performLoad at hload
    split at hload <;> cases hload
  | csrRead csr => exact performCsrRead_samePrograms (Except.ok.inj h)
  | csrWrite csr v => exact performCsrWrite_samePrograms (Except.ok.inj h)
  | ttSync => cases Except.ok.inj h

theorem pushWord_samePrograms {t : ThreadId} {w : Word} {s s' : State} (h : pushWord t w s = .ok (.next s')) :
    samePrograms s s' := by
  obtain ⟨-, rfl⟩ := pushWord_ok.1 h
  exact samePrograms_setThread s t _

theorem performTrisc_samePrograms {t : ThreadId} {a : TriscAction} {s s' : State}
    (h : performTrisc t a s = .ok (.next s')) : samePrograms s s' := by
  cases a with
  | push w => exact pushWord_samePrograms h
  | ttinsn e => exact pushWord_samePrograms h
  | mopSync v => exact performMopSync_samePrograms h
  | access a => exact performAccess_samePrograms h

theorem performBrisc_samePrograms {a : BriscAction} {s s' : State} (h : performBrisc a s = .ok (.next s')) :
    samePrograms s s' := by
  cases a with
  | pushPostMop t w =>
    cases Except.ok.inj h
    exact samePrograms_setThread s t _
  | writeMopCfg t i v => exact writeMopCfg_samePrograms (Except.ok.inj h)
  | access a => exact performAccess_samePrograms h

/-! A core's turn: nothing, or its next action. -/

theorem coreStep_trisc_next {t : ThreadId} {s s' : State} (h : coreStep (.trisc t) s = .next s') :
    s' = s ∨ ∃ a rest, (s.trisc t).program = a :: rest ∧
      performTrisc t a (s.setTriscProgram t rest) = .ok (.next s') := by
  cases hp : (s.trisc t).program with
  | nil =>
    rw [coreStep_of_attempt_none (by simp only [attempt, hp])] at h
    cases h
    exact .inl rfl
  | cons a rest =>
    cases hr : performTrisc t a (s.setTriscProgram t rest) with
    | error e =>
      rw [(trisc_held hp hr).1] at h
      cases h
      exact .inl rfl
    | ok r =>
      rw [coreStep_trisc_of_performTrisc hp hr] at h
      subst h
      exact .inr ⟨a, rest, rfl, hr⟩

theorem coreStep_brisc_next {s s' : State} (h : coreStep .brisc s = .next s') :
    s' = s ∨ ∃ a rest, s.brisc.program = a :: rest ∧ performBrisc a (s.setBriscProgram rest) = .ok (.next s') := by
  cases hp : s.brisc.program with
  | nil =>
    rw [coreStep_of_attempt_none (by simp only [attempt, hp])] at h
    cases h
    exact .inl rfl
  | cons a rest =>
    cases hr : performBrisc a (s.setBriscProgram rest) with
    | error e =>
      rw [coreStep_of_attempt_error (e := e) (by simp only [attempt, hp, hr])] at h
      cases h
      exact .inl rfl
    | ok r =>
      rw [coreStep_brisc_of_performBrisc hp hr] at h
      subst h
      exact .inr ⟨a, rest, rfl, hr⟩

/-! Threads that are not disturbed (R202). -/

theorem undisturbed_iff (s : State) (t : ThreadId) : s.undisturbed t = true ↔
    (∀ a ∈ (s.trisc t).program, a.sparesMopCfg = true) ∧ ∀ a ∈ s.brisc.program, a.spares t = true := by
  simp [State.undisturbed]

theorem undisturbed_of_subset {s s' : State} {t : ThreadId} (h : s.undisturbed t = true)
    (htrisc : (s'.trisc t).program ⊆ (s.trisc t).program) (hbrisc : s'.brisc.program ⊆ s.brisc.program) :
    s'.undisturbed t = true := by
  rw [undisturbed_iff] at h ⊢
  exact ⟨fun a ha => h.1 a (htrisc ha), fun a ha => h.2 a (hbrisc ha)⟩

/-- What a thread will deliver depends on what it comes to, its MopCfg, and what its TRISC has still to push. -/
theorem outcome_eq_of_settled {s s' : State} {t : ThreadId} (hsettled : (s'.thread t).settled = (s.thread t).settled)
    (hcfg : (s'.thread t).mopCfg = (s.thread t).mopCfg)
    (hprogram : (s'.trisc t).program = (s.trisc t).program) : s'.outcome t = s.outcome t := by
  rw [State.outcome, State.outcome, ThreadState.settled_fifo_append, ThreadState.settled_fifo_append, hsettled, hcfg,
    hprogram]

/-- An action that stores to no MopCfg register does no more to its thread than push its words. -/
theorem performTrisc_thread_of_spares {t : ThreadId} {a : TriscAction} {s s' : State}
    (h : performTrisc t a s = .ok (.next s')) (ha : a.sparesMopCfg = true) :
    s'.thread t = { s.thread t with fifo := (s.thread t).fifo ++ a.pushed } := by
  cases a with
  | push w =>
    obtain ⟨-, rfl⟩ := pushWord_ok.1 h
    simp [ThreadState.pushFifo, TriscAction.pushed]
  | ttinsn e =>
    obtain ⟨-, rfl⟩ := pushWord_ok.1 h
    simp [ThreadState.pushFifo, TriscAction.pushed]
  | mopSync v =>
    obtain ⟨-, rfl⟩ := performMopSync_ok.1 h
    simp [TriscAction.pushed]
  | access a =>
    obtain hsame | ⟨u, i, v, addr, rfl, ⟨-, hw, -⟩ | ⟨hc, -⟩, -, -⟩ := performAccess_next h
    · simp [hsame, TriscAction.pushed]
    · simp [TriscAction.sparesMopCfg, hw] at ha
    · cases hc

/-- A turn of TRISC_t moves words from those it has still to push to the FIFO. -/
theorem coreStep_trisc_outcome {t : ThreadId} {s s' : State} (hs : s.undisturbed t = true)
    (h : coreStep (.trisc t) s = .next s') : s'.undisturbed t = true ∧ s'.outcome t = s.outcome t := by
  obtain rfl | ⟨a, rest, hp, hr⟩ := coreStep_trisc_next h
  · exact ⟨hs, rfl⟩
  · obtain ⟨htrisc, hbrisc⟩ := performTrisc_samePrograms hr
    have ha : a.sparesMopCfg = true := ((undisturbed_iff s t).1 hs).1 a (by simp [hp])
    have hthread := performTrisc_thread_of_spares hr ha
    have hrest : (s'.trisc t).program = rest := by simpa using htrisc t
    refine ⟨undisturbed_of_subset hs (by simp [hrest, hp]) (by simp [hbrisc]), ?_⟩
    simp [State.outcome, hthread, hrest, hp]

/-- Another TRISC's turn changes neither thread t nor its program. -/
theorem coreStep_other_trisc {t u : ThreadId} {s s' : State} (hu : u ≠ t) (h : coreStep (.trisc u) s = .next s') :
    s'.thread t = s.thread t ∧ (s'.trisc t).program = (s.trisc t).program ∧ s'.brisc.program = s.brisc.program := by
  constructor
  · obtain hsame | ⟨w, hc, -⟩ | ⟨w, rest, hc, -⟩ | ⟨i, v, hstore, -⟩ := coreStep_thread h t
    · exact hsame
    · exact absurd (CoreId.trisc.inj hc) hu
    · cases hc
    · exact absurd hstore.1 hu
  · obtain rfl | ⟨a, rest, hp, hr⟩ := coreStep_trisc_next h
    · exact ⟨rfl, rfl⟩
    · obtain ⟨htrisc, hbrisc⟩ := performTrisc_samePrograms hr
      exact ⟨by simpa [hu.symm] using htrisc t, by simpa using hbrisc⟩

/-- BRISC's turn does not change a thread it spares. -/
theorem coreStep_brisc_of_spares {t : ThreadId} {s s' : State} (hs : ∀ a ∈ s.brisc.program, a.spares t = true)
    (h : coreStep .brisc s = .next s') :
    s'.thread t = s.thread t ∧ (s'.trisc t).program = (s.trisc t).program ∧
      s'.brisc.program ⊆ s.brisc.program := by
  constructor
  · obtain hsame | ⟨w, hc, -⟩ | ⟨w, rest, -, hp, -⟩ | ⟨i, v, ⟨rest, hp | ⟨addr, htarget, hp⟩⟩, -⟩ := coreStep_thread h t
    · exact hsame
    · cases hc
    · simpa [BriscAction.spares] using hs (.pushPostMop t w) (by simp [hp])
    · simpa [BriscAction.spares] using hs (.writeMopCfg t i v) (by simp [hp])
    · simpa [BriscAction.spares, htarget] using hs (.access (.store addr 4 v)) (by simp [hp])
  · obtain rfl | ⟨a, rest, hp, hr⟩ := coreStep_brisc_next h
    · exact ⟨rfl, fun _ ha => ha⟩
    · obtain ⟨htrisc, hbrisc⟩ := performBrisc_samePrograms hr
      exact ⟨by simpa using htrisc t, by simp [hbrisc, hp]⟩

/-- Whoever takes its turn, what an undisturbed thread will deliver is the same. -/
theorem agentStep_outcome {a : Agent} {s s' : State} {t : ThreadId} (hs : s.undisturbed t = true)
    (h : agentStep a s = .next s') : s'.undisturbed t = true ∧ s'.outcome t = s.outcome t := by
  cases a with
  | expander site =>
    obtain ⟨hcores, -⟩ := expanderStep_move h t
    obtain ⟨htrisc, hbrisc⟩ := samePrograms_of_sameCores hcores
    exact ⟨undisturbed_of_subset hs (by simp [htrisc]) (by simp [hbrisc]),
      outcome_eq_of_settled (expanderStep_settled h t) (expanderStep_mopCfg h t) (htrisc t)⟩
  | core c =>
    cases c with
    | trisc u =>
      by_cases hu : u = t
      · subst hu
        exact coreStep_trisc_outcome hs h
      · obtain ⟨hthread, htrisc, hbrisc⟩ := coreStep_other_trisc hu h
        exact ⟨undisturbed_of_subset hs (by simp [htrisc]) (by simp [hbrisc]),
          outcome_eq_of_settled (by rw [hthread]) (by rw [hthread]) htrisc⟩
    | brisc =>
      obtain ⟨hthread, htrisc, hbrisc⟩ := coreStep_brisc_of_spares ((undisturbed_iff s t).1 hs).2 h
      exact ⟨undisturbed_of_subset hs (by simp [htrisc]) hbrisc,
        outcome_eq_of_settled (by rw [hthread]) (by rw [hthread]) htrisc⟩

/-! Runs whose cores are done (R204). -/

theorem forall_thread_iff (p : ThreadId → Prop) : (∀ t, p t) ↔ p .t0 ∧ p .t1 ∧ p .t2 := by
  constructor
  · intro h
    exact ⟨h .t0, h .t1, h .t2⟩
  · rintro ⟨h0, h1, h2⟩ t
    cases t <;> assumption

theorem coresDone_iff (s : State) :
    coresDone s = true ↔ (∀ t, (s.trisc t).program = []) ∧ s.brisc.program = [] := by
  simp [coresDone, forall_thread_iff, State.trisc, and_assoc]

/-- With the cores done, a step keeps them so, and what every thread comes to. -/
theorem step_of_coresDone {s s' : State} (hs : coresDone s = true) (h : step s = .next s') :
    coresDone s' = true ∧ ∀ t, (s'.thread t).settled = (s.thread t).settled := by
  obtain ⟨a, s1, hstep, hthread, htrisc, hbrisc⟩ := step_eq s
  have hs1 : coresDone s1 = true := by
    rw [coresDone_iff] at hs ⊢
    simpa only [htrisc, hbrisc] using hs
  obtain ⟨htriscs, hbriscs⟩ := (coresDone_iff s1).1 hs1
  rw [hstep] at h
  cases a with
  | core c =>
    have hnone : attempt c s1 = none := by cases c <;> simp [attempt, htriscs, hbriscs]
    rw [show agentStep (.core c) s1 = _ from coreStep_of_attempt_none hnone] at h
    cases h
    exact ⟨hs1, fun t => by rw [hthread]⟩
  | expander site =>
    refine ⟨?_, fun t => by rw [expanderStep_settled h t, hthread]⟩
    obtain ⟨hsame, hb⟩ := (expanderStep_move h .t0).1
    rw [coresDone_iff]
    exact ⟨fun t => by rw [hsame, htriscs], by rw [hb, hbriscs]⟩

theorem run_succ_of_step {k : Nat} {s s1 : State} (h : step s = .next s1) :
    Sys2Proof.core.run (k + 1) s = Sys2Proof.core.run k s1 := by
  have hstep : Sys2Proof.core.step s = .next s1 := h
  simp only [Host.Core.run, hstep]

/-- A run of more than no steps that completes makes a step first. -/
theorem run_succ_next {k : Nat} {s s' : State} (h : Sys2Proof.core.run (k + 1) s = .next s') :
    ∃ s1, step s = .next s1 ∧ Sys2Proof.core.run k s1 = .next s' := by
  cases hstep : Sys2Proof.core.step s with
  | next s1 => exact ⟨s1, hstep, (run_succ_of_step hstep).symm.trans h⟩
  | fault r => simp only [Host.Core.run, hstep] at h; cases h
  | refused r => simp only [Host.Core.run, hstep] at h; cases h

/-- Along every run the threads come to the same. -/
theorem run_settled {k : Nat} {s s' : State} (hs : coresDone s = true) (h : Sys2Proof.core.run k s = .next s')
    (t : ThreadId) : (s'.thread t).settled = (s.thread t).settled := by
  induction k generalizing s with
  | zero =>
    cases h
    rfl
  | succ k ih =>
    obtain ⟨s1, hstep, hrun⟩ := run_succ_next h
    obtain ⟨hdone, hsettled⟩ := step_of_coresDone hs hstep
    rw [ih hdone hrun, hsettled t]

/-! The end of a run (R204). -/

theorem runEnded_iff (s : State) : runEnded s = true ↔
    (∀ t, (s.thread t).fifo = [] ∧ (s.thread t).mopPending = [] ∧ (s.thread t).postMop = [] ∧
      (s.thread t).playPending = [] ∧ (s.trisc t).program = []) ∧ s.brisc.program = [] := by
  have hthreads : (s.th0.quiescent && s.th1.quiescent && s.th2.quiescent) = true ↔
      ∀ t, (s.thread t).quiescent = true := by
    simp [forall_thread_iff, State.thread, and_assoc]
  rw [runEnded, Bool.and_eq_true, hthreads, coresDone_iff, ← and_assoc, ← forall_and]
  simp only [quiescent_iff, and_assoc]

theorem recordingOpen_iff (s : State) : recordingOpen s = true ↔ ∃ t r, (s.thread t).recording = some r := by
  simp only [recordingOpen, Bool.or_eq_true, Option.isSome_iff_exists]
  constructor
  · rintro ((⟨r, h⟩ | ⟨r, h⟩) | ⟨r, h⟩)
    · exact ⟨.t0, r, h⟩
    · exact ⟨.t1, r, h⟩
    · exact ⟨.t2, r, h⟩
  · rintro ⟨t, r, h⟩
    cases t
    · exact .inl (.inl ⟨r, h⟩)
    · exact .inl (.inr ⟨r, h⟩)
    · exact .inr ⟨r, h⟩

/-! The statements. -/

/-- Settles O54: every move of a unit keeps what its thread comes to. -/
theorem unitTurnsKeepWhatAThreadComesTo : Obligations.UnitTurnsKeepWhatAThreadComesTo :=
  fun _ _ _ t h => expanderStep_settled h t

/-- Settles O55: along a run the threads come to the same, and a thread at rest holds what it comes to. -/
theorem outputDoesNotDependOnTheSchedule : Obligations.OutputDoesNotDependOnTheSchedule := by
  intro k s s' t hs h hquiescent
  rw [← run_settled hs h t, settled_of_quiescent hquiescent]

/-- Settles O56: the status is read off from the two tests. -/
theorem runStatusAtTheEnd : Obligations.RunStatusAtTheEnd := by
  intro s
  rw [← runEnded_iff, runStatus]
  cases hended : runEnded s with
  | false => simp
  | true =>
    cases hopen : recordingOpen s with
    | true => simp [(recordingOpen_iff s).1 hopen]
    | false =>
      have hnone : ∀ t, (s.thread t).recording = none := by
        simpa [recordingOpen_iff, Option.eq_none_iff_forall_ne_some] using
          (Bool.eq_false_iff.1 hopen : recordingOpen s ≠ true)
      simp [hnone]

/-- Settles O58: a step is an agent's turn, and every agent's turn keeps both. -/
theorem turnsKeepWhatAThreadWillDeliver : Obligations.TurnsKeepWhatAThreadWillDeliver := by
  intro s s' t hs h
  obtain ⟨a, s1, hstep, hthread, htrisc, hbrisc⟩ := step_eq s
  have hs1 : s1.undisturbed t = true := undisturbed_of_subset hs (by simp [htrisc]) (by simp [hbrisc])
  obtain ⟨hs', houtcome⟩ := agentStep_outcome hs1 (hstep ▸ h)
  exact ⟨hs', houtcome.trans (outcome_eq_of_settled (by rw [hthread]) (by rw [hthread]) (by rw [htrisc]))⟩

end Sys2Proof.Machine
end

section
/-! Recording and playing back (spec/41_replay.md R164, R167 to R170): what a recording leaves in the slots, the last
word of each, and that a playback reads them in order. -/

namespace Sys2Proof.Machine

/-! The slots. -/

theorem replaySlot_eq_iff (base : Fin 32) (i j : Nat) : replaySlot base i = replaySlot base j ↔ i % 32 = j % 32 := by
  rw [Fin.ext_iff]
  change (base.val + i) % 32 = (base.val + j) % 32 ↔ _
  omega

/-- The buffer after the words of a recording from its i-th on have been captured (R164). -/
def recordWords (base : Fin 32) : (buf : ReplayBuf) → (i : Nat) → List Word → ReplayBuf
  | buf, _, [] => buf
  | buf, i, w :: ws => recordWords base (buf.set (replaySlot base i) w) (i + 1) ws

/-- A slot that no captured word has keeps its contents. -/
theorem recordWords_untouched {base k : Fin 32} {buf : ReplayBuf} {i : Nat} {ws : List Word}
    (h : ∀ j < ws.length, replaySlot base (i + j) ≠ k) : (recordWords base buf i ws)[k] = buf[k] := by
  induction ws generalizing buf i with
  | nil => rfl
  | cons w ws ih =>
    have hfirst : replaySlot base i ≠ k := h 0 (Nat.succ_pos _)
    rw [recordWords, ih fun j hj => ?_]
    · exact Vector.getElem_set_ne _ _ (fun heq => hfirst (Fin.ext heq))
    · rw [Nat.add_right_comm]
      exact h (j + 1) (Nat.succ_lt_succ hj)

/-- A slot holds the last captured word that has it. -/
theorem recordWords_last {base k : Fin 32} {buf : ReplayBuf} {i j : Nat} {ws : List Word} (hj : j < ws.length)
    (hk : replaySlot base (i + j) = k) (hlast : ∀ j' < ws.length, j < j' → replaySlot base (i + j') ≠ k) :
    (recordWords base buf i ws)[k] = ws[j] := by
  induction ws generalizing buf i j with
  | nil => exact absurd hj (Nat.not_lt_zero j)
  | cons w ws ih =>
    have hlater : ∀ j' < ws.length, j < j' + 1 → replaySlot base (i + 1 + j') ≠ k := fun j' hj' hlt => by
      rw [Nat.add_right_comm]
      exact hlast (j' + 1) (Nat.succ_lt_succ hj') hlt
    rw [recordWords]
    cases j with
    | zero =>
      subst hk
      rw [recordWords_untouched fun j' hj' => hlater j' hj' (Nat.succ_pos j')]
      exact Vector.getElem_set_self _
    | succ j =>
      exact ih (Nat.lt_of_succ_lt_succ hj) (by rw [← hk, Nat.add_right_comm, Nat.add_assoc])
        fun j' hj' hlt => hlater j' hj' (Nat.succ_lt_succ hlt)

/-- The last of at most 64 words to have the slot of the i-th is the i-th itself or the one 32 later. -/
theorem recordWords_slot {base : Fin 32} {buf : ReplayBuf} {i : Nat} {ws : List Word} (hlength : ws.length ≤ 64)
    (hi : i < ws.length) : (recordWords base buf 0 ws)[replaySlot base i] =
      ws.getD (if i + 32 < ws.length then i + 32 else i) 0 := by
  by_cases hwrap : i + 32 < ws.length
  · rw [if_pos hwrap, List.getD_eq_getElem _ _ hwrap]
    exact recordWords_last hwrap ((replaySlot_eq_iff _ _ _).2 (by omega))
      fun j hj hlt => mt (replaySlot_eq_iff _ _ _).1 (by omega)
  · rw [if_neg hwrap, List.getD_eq_getElem _ _ hi]
    exact recordWords_last hi ((replaySlot_eq_iff _ _ _).2 (by omega))
      fun j hj hlt => mt (replaySlot_eq_iff _ _ _).1 (by omega)

/-! `F_replay` on a recording and on a playback. -/

/-- The remaining words of a recording are captured, and emitted with Exec; the last one ends it (R161, R164). -/
theorem replayStream_recording {base : Fin 32} {n i : Nat} {e : Bool} {buf : ReplayBuf} {ws : List Word}
    (hne : ws ≠ []) (hn : i + ws.length = n) :
    replayStream { buf := buf, recording := some { base := base, i := i, n := n, exec := e } } ws =
      (if e then ws else [], { buf := recordWords base buf i ws, recording := none }) := by
  induction ws generalizing buf i with
  | nil => exact absurd rfl hne
  | cons w ws ih =>
    rw [List.length_cons] at hn
    rw [replayStream, replayModel_of_recording rfl, Recording.advance]
    cases ws with
    | nil =>
      have hend : i + 1 = n := by simpa using hn
      simp [hend, replayStream, recordWords]
    | cons w' ws =>
      have hgoes : i + 1 ≠ n := by rw [List.length_cons] at hn; omega
      simp only [hgoes, if_false]
      rw [ih (by simp) (by omega)]
      cases e <;> simp [recordWords]

theorem replayStream_record {u : ReplayUnit} {a b : BitVec 10} {x : BitVec 2} {e : Bool} {ws : List Word}
    (hrec : u.recording = none) (hlength : ws.length = replayCount b) :
    replayStream u (encode (.replay a b x e true) :: ws) =
      (if e then ws else [], { buf := recordWords (replayIndex a) u.buf 0 ws, recording := none }) := by
  have hne : ws ≠ [] := List.ne_nil_of_length_pos (hlength ▸ replayCount_pos b)
  rw [replayStream, replayModel_of_replay hrec (decode_encode rfl)]
  simp [replayStream_recording hne (Nat.zero_add ws.length |>.trans hlength)]

theorem replayStream_playback {u : ReplayUnit} {a b : BitVec 10} {x : BitVec 2} {e : Bool}
    (hrec : u.recording = none) : replayStream u [encode (.replay a b x e false)] =
      (playbackWords u.buf (replayIndex a) (replayCount b), u) := by
  rw [replayStream, replayModel_of_replay hrec (decode_encode rfl)]
  simp [replayStream]

/-! The statement. -/

/-- Settles O23: the recording leaves the last word of each slot, and the playback reads the slots in order. -/
theorem recordThenPlaybackGivesTheLastWords : Obligations.RecordThenPlaybackGivesTheLastWords := by
  intro u a b x y e e' ws hrec hlength
  have hmax : ws.length ≤ 64 := hlength ▸ replayCount_le b
  refine ⟨?_, fun k hk => ?_⟩
  · rw [replayStream_append, replayStream_record hrec hlength, replayStream_playback rfl, ← hlength, playbackWords]
    refine congrArg _ (List.map_congr_left fun i hi => ?_)
    exact recordWords_slot hmax (List.mem_range.1 hi)
  · rw [replayStream_record hrec hlength]
    exact recordWords_untouched fun j hj => by rw [Nat.zero_add]; exact hk j hj

end Sys2Proof.Machine
end

section
/-! Programming the nine registers of Template 1, one store a turn (spec/30_encoding.md R113, R115, spec/20_memory.md
R64). -/

namespace Sys2Proof.Machine

open Sys2Proof.Safety

/-- MopCfg after the registers of a list have been stored, each at its value in `cfg`. -/
def storeRegisters (cfg : MopCfg) : (registers : List (Fin 9)) → MopCfg → MopCfg
  | [], old => old
  | i :: is, old => storeRegisters cfg is (old.set i cfg[i])

theorem storeRegisters_getElem (cfg : MopCfg) (is : List (Fin 9)) (old : MopCfg) (k : Fin 9) :
    (storeRegisters cfg is old)[k] = if k ∈ is then cfg[k] else old[k] := by
  induction is generalizing old with
  | nil => simp [storeRegisters]
  | cons i is ih =>
    rw [storeRegisters, ih]
    by_cases hk : k = i
    · subst hk
      simp
    · have hset : (old.set i cfg[i])[k] = old[k] := Vector.getElem_set_ne _ _ fun h => hk (Fin.ext h.symm)
      rw [hset]
      simp [hk]

/-- All nine stored, nothing of the old registers is left. -/
theorem storeRegisters_all (cfg old : MopCfg) : storeRegisters cfg (List.finRange 9) old = cfg := by
  refine Vector.ext fun k hk => ?_
  simpa using storeRegisters_getElem cfg (List.finRange 9) old ⟨k, hk⟩

/-- One turn of TRISC_t that stores register i. -/
theorem step_storeRegister {s : State} {t : ThreadId} {i : Fin 9} {v : Word} {rest : List TriscAction}
    {turns : List Agent} (hp : (s.trisc t).program = storeMopCfgRegister i v :: rest)
    (hbusy : (s.thread t).mopBusy = false) (hturn : s.schedule = .core (.trisc t) :: turns) :
    step s = .next ((({ s with schedule := turns } : State).setTriscProgram t rest).setThread t
      ((s.thread t).setMopCfg i v)) := by
  have hstep := coreStep_storeRegister (s := { s with schedule := turns }) (t := t) (i := i) (v := v) (rest := rest)
    (by rw [State.trisc_with_schedule]; exact hp)
  have hwrite := writeMopCfg_free (t := t) (i := i) (v := v)
    (s := ({ s with schedule := turns } : State).setTriscProgram t rest) (by simpa using hbusy)
  rw [step_of_schedule hturn, agentStep, hstep, hwrite]
  simp

/-- As many turns of TRISC_t as it has registers to store. -/
theorem run_storeRegisters {t : ThreadId} {cfg : MopCfg} {rest : List TriscAction} {turns : List Agent}
    (is : List (Fin 9)) {s : State} (hp : (s.trisc t).program = (is.map fun i => storeMopCfgRegister i cfg[i]) ++ rest)
    (hbusy : (s.thread t).mopBusy = false)
    (hturns : s.schedule = List.replicate is.length (.core (.trisc t)) ++ turns) :
    ∃ s' : State, Sys2Proof.core.run is.length s = .next s' ∧
      (s'.thread t).mopCfg = storeRegisters cfg is (s.thread t).mopCfg ∧ (s'.trisc t).program = rest ∧
      s'.schedule = turns ∧ sameThreadsBut t s s' := by
  induction is generalizing s with
  | nil => exact ⟨s, rfl, rfl, by simpa using hp, by simpa using hturns, fun _ _ => rfl⟩
  | cons i is ih =>
    rw [List.map_cons, List.cons_append] at hp
    rw [List.length_cons, List.replicate_succ, List.cons_append] at hturns
    obtain ⟨s', hrun, hcfg, hprogram, hschedule, hothers⟩ :=
      ih (s := (({ s with schedule := List.replicate is.length (.core (.trisc t)) ++ turns } : State).setTriscProgram t
        ((is.map fun i => storeMopCfgRegister i cfg[i]) ++ rest)).setThread t ((s.thread t).setMopCfg i cfg[i]))
        (by simp) (by simpa using hbusy) (by simp)
    refine ⟨s', (run_succ_of_step (step_storeRegister hp hbusy hturns)).trans hrun, ?_, hprogram, hschedule,
      fun t' hne => ?_⟩
    · simpa [storeRegisters] using hcfg
    · simpa [hne] using hothers t' hne

/-- Settles O44: nine turns store the nine registers in order. -/
theorem programmingTemplate1SetsAllNine : Obligations.ProgrammingTemplate1SetsAllNine := by
  intro s t cfg rest turns hp hbusy hturns
  obtain ⟨s', hrun, hcfg, hprogram, hschedule, hothers⟩ := run_storeRegisters (List.finRange 9) hp hbusy hturns
  exact ⟨s', hrun, hcfg.trans (storeRegisters_all cfg _), hprogram, hschedule, hothers⟩

end Sys2Proof.Machine
end

section
/-! What a turn does not look at: a change of the machine that a unit or a core is blind to can be made before its turn
or after it (spec/10_state.md R35, R38, R41, spec/20_memory.md R65, spec/60_exceptions.md R219). -/

namespace Sys2Proof.Machine

open Sys2Proof.Safety

/-! Independent replacements commute. -/

theorem State.setThread_comm (s : State) {t u : ThreadId} (h : u ≠ t) (a b : ThreadState) :
    (s.setThread u a).setThread t b = (s.setThread t b).setThread u a := by
  cases t <;> cases u
  case t0.t0 | t1.t1 | t2.t2 => exact absurd rfl h
  all_goals rfl

theorem State.setThread_setTriscProgram (s : State) (u t : ThreadId) (th : ThreadState) (p : List TriscAction) :
    (s.setThread u th).setTriscProgram t p = (s.setTriscProgram t p).setThread u th := by
  cases t <;> cases u <;> rfl

theorem State.setThread_setPort (s : State) (u : ThreadId) (th : ThreadState) (c : CoreId) (p : CorePort) :
    (s.setThread u th).setPort c p = (s.setPort c p).setThread u th := by
  cases c with
  | trisc t => cases t <;> cases u <;> rfl
  | brisc => cases u <;> rfl

theorem State.setThread_countDraw (s : State) (u : ThreadId) (th : ThreadState) :
    (s.setThread u th).countDraw = s.countDraw.setThread u th := by cases u <;> rfl

theorem State.setPort_setSite (s : State) (c : CoreId) (p : CorePort) (x : Site) :
    (s.setPort c p).setSite x = (s.setSite x).setPort c p := by
  cases c with
  | trisc t => cases t <;> rfl
  | brisc => rfl

theorem State.setPort_setTriscProgram (s : State) (c : CoreId) (q : CorePort) (t : ThreadId) (p : List TriscAction) :
    (s.setPort c q).setTriscProgram t p = (s.setTriscProgram t p).setPort c q := by
  cases c with
  | trisc u => cases t <;> cases u <;> rfl
  | brisc => cases t <;> rfl

theorem State.setPort_setBriscProgram (s : State) (c : CoreId) (q : CorePort) (p : List BriscAction) :
    (s.setPort c q).setBriscProgram p = (s.setBriscProgram p).setPort c q := by
  cases c with
  | trisc u => cases u <;> rfl
  | brisc => rfl

theorem State.setPort_setPort_same (s : State) (c : CoreId) (p q : CorePort) :
    (s.setPort c p).setPort c q = s.setPort c q := by
  cases c with
  | trisc u => cases u <;> rfl
  | brisc => rfl

theorem State.setPort_comm (s : State) {c c' : CoreId} (h : c' ≠ c) (p q : CorePort) :
    (s.setPort c p).setPort c' q = (s.setPort c' q).setPort c p := by
  cases c with
  | trisc t =>
    cases c' with
    | trisc u =>
      cases t <;> cases u
      case t0.t0 | t1.t1 | t2.t2 => exact absurd rfl h
      all_goals rfl
    | brisc => cases t <;> rfl
  | brisc =>
    cases c' with
    | trisc u => cases u <;> rfl
    | brisc => exact absurd rfl h

theorem State.setPort_countDraw (s : State) (c : CoreId) (p : CorePort) :
    (s.setPort c p).countDraw = s.countDraw.setPort c p := by
  cases c with
  | trisc t => cases t <;> rfl
  | brisc => rfl

/-! Blindness. -/

/-- An answer with its next state changed. -/
def mapNext (f : State → State) : Result → Result
  | .next s => .next (f s)
  | .fault r => .fault r
  | .refused r => .refused r

/-- The units of thread t are blind to a change: it leaves their thread and the unit at work, and commutes with their
replacement. -/
structure UnitBlind (t : ThreadId) (f : State → State) : Prop where
  thread : ∀ s, (f s).thread t = s.thread t
  setThread : ∀ s th, (f s).setThread t th = f (s.setThread t th)
  site : ∀ s, (f s).site = s.site
  setSite : ∀ s x, (f s).setSite x = f (s.setSite x)

/-- A core is blind to a change: the units of each thread it can store to are, and it leaves the core's own next action
and what its reads do. -/
structure CoreBlind (c : CoreId) (f : State → State) : Prop where
  unit : ∀ t, c = .trisc t ∨ c = .brisc → UnitBlind t f
  draws : ∀ s, (f s).draws = s.draws
  reads : ∀ s v, (returnRead c v (f s)).countDraw = f (returnRead c v s).countDraw

theorem unitBlind_setThread {t u : ThreadId} (h : u ≠ t) (th : ThreadState) : UnitBlind t (State.setThread · u th) where
  thread s := State.thread_setThread_ne s u t th h.symm
  setThread s a := State.setThread_comm s h th a
  site s := State.setThread_site s u th
  setSite s x := (State.setSite_setThread s x u th).symm

theorem unitBlind_setPort (t : ThreadId) (c : CoreId) (p : CorePort) : UnitBlind t (State.setPort · c p) where
  thread s := State.setPort_thread s c p t
  setThread s th := (State.setThread_setPort s t th c p).symm
  site s := State.setPort_site s c p
  setSite s x := State.setPort_setSite s c p x

/-! The units (spec/42_passthrough_and_composition.md R201). -/

section
variable {t : ThreadId} {f : State → State} (hf : UnitBlind t f)
include hf

theorem deliver_blind (w : Word) (s : State) : deliver t w (f s) = mapNext f (deliver t w s) := by
  unfold deliver
  split
  · rfl
  · rw [hf.thread, hf.setThread, mapNext]

theorem captureWord_blind (r : Recording) (w : Word) (s : State) :
    captureWord t r w (f s) = mapNext f (captureWord t r w s) := by
  unfold captureWord
  rw [hf.thread, hf.setThread]
  split
  · exact deliver_blind hf w _
  · rfl

theorem captureOr_blind {g : State → Result} (hg : ∀ s, g (f s) = mapNext f (g s)) (w : Word) (s : State) :
    captureOr t w g (f s) = mapNext f (captureOr t w g s) := by
  unfold captureOr
  rw [hf.thread]
  split
  · exact captureWord_blind hf _ w s
  · exact hg s

theorem passThrough_blind (w : Word) {s : State} (hsite : s.site.thread = t) :
    passThrough w (f s) = mapNext f (passThrough w s) := by
  subst hsite
  unfold passThrough
  rw [hf.site]
  split
  · rw [hf.thread, hf.setThread, mapNext]
  · exact captureOr_blind hf (deliver_blind hf w) w s

theorem interpretReplay_blind (a b : BitVec 10) (e l : Bool) (s : State) :
    interpretReplay t a b e l (f s) = mapNext f (interpretReplay t a b e l s) := by
  unfold interpretReplay
  rw [hf.thread, hf.setThread, hf.setThread]
  split <;> rfl

theorem exec_blind (i : Instr) {s : State} (hsite : s.site.thread = t) : exec i (f s) = mapNext f (exec i s) := by
  cases i with
  | mop tm c m =>
    simp only [exec, execMop, hf.site]
    split
    · subst hsite
      rw [hf.thread, hf.setThread, mapNext]
    · exact passThrough_blind hf _ hsite
  | mopCfg r h =>
    simp only [exec, execMopCfg, hf.site]
    split
    · subst hsite
      rw [hf.thread, hf.setThread, mapNext]
    · exact passThrough_blind hf _ hsite
  | replay a b u e l =>
    simp only [exec, execReplay, hf.site]
    split
    · exact passThrough_blind hf _ hsite
    · subst hsite
      exact captureOr_blind hf (interpretReplay_blind hf a b e l) _ s
  | nop | resourcedecl | dmanop | sfpnop | other => exact passThrough_blind hf _ hsite

theorem mopStep_blind (s : State) : mopStep t (f s) = mapNext f (mopStep t s) := by
  unfold mopStep
  rw [hf.thread]
  split
  · rw [mopEmit, hf.thread, hf.setThread]
    rfl
  · split
    · rw [mopTake, hf.thread, hf.setThread, hf.setSite]
      exact exec_blind hf _ rfl
    · rfl

theorem replayStep_blind (s : State) : replayStep t (f s) = mapNext f (replayStep t s) := by
  unfold replayStep
  rw [hf.thread]
  split
  · unfold replayEmit
    rw [hf.thread]
    split
    · rfl
    · rw [hf.setThread]
      exact deliver_blind hf _ _
  · split
    · rw [replayTake, hf.thread, hf.setThread, hf.setSite]
      exact exec_blind hf _ rfl
    · rfl

theorem writeMopCfg_blind (i : Fin 9) (v : Word) (s : State) :
    writeMopCfg t i v (f s) = mapNext f (writeMopCfg t i v s) := by
  unfold writeMopCfg
  rw [hf.thread, hf.setThread]
  split <;> rfl

theorem pushWord_blind (w : Word) (s : State) : pushWord t w (f s) = (pushWord t w s).map (mapNext f) := by
  unfold pushWord
  rw [hf.thread, hf.setThread]
  split <;> rfl

theorem performMopSync_blind (s : State) : performMopSync t (f s) = (performMopSync t s).map (mapNext f) := by
  unfold performMopSync
  rw [hf.thread]
  split <;> rfl

end

theorem expanderStep_blind {site : Site} {f : State → State} (hf : UnitBlind site.thread f) (s : State) :
    expanderStep site (f s) = mapNext f (expanderStep site s) := by
  obtain ⟨t, stage⟩ := site
  cases stage with
  | mopExpander => exact mopStep_blind hf s
  | replayExpander => exact replayStep_blind hf s

/-! The cores. -/

section
variable {c : CoreId} {f : State → State} (hf : CoreBlind c f)
include hf

theorem performStore_blind (addr : Word) (width : Nat) (v : Word) (s : State) :
    performStore c addr width v (f s) = (performStore c addr width v s).map (mapNext f) := by
  unfold performStore
  split
  · unfold storeMopCfgWindow
    split
    · cases c with
      | trisc t => exact congrArg Except.ok (writeMopCfg_blind (hf.unit t (.inl rfl)) _ v s)
      | brisc => rfl
    · rfl
  · cases c with
    | trisc t =>
      dsimp only [storeTriscOutside]
      split
      · split
        · exact performMopSync_blind (hf.unit t (.inl rfl)) s
        · rfl
      · rfl
    | brisc =>
      dsimp only [storeBriscOutside]
      split
      · split
        · exact congrArg Except.ok (writeMopCfg_blind (hf.unit _ (.inr rfl)) _ v s)
        · rfl
      · rfl

/-- A read is blind to what does not show in CSR 0xBC0. -/
theorem performCsrRead_blind {csr : Nat} {s : State}
    (hq : csr = Config.qstatusCsr → ∀ t, c = .trisc t → qstatus (f s) t = qstatus s t) :
    performCsrRead c csr (f s) = mapNext f (performCsrRead c csr s) := by
  unfold performCsrRead
  split
  · next hcsr =>
    cases c with
    | trisc t =>
      dsimp only
      rw [hq hcsr t rfl, hf.reads, mapNext]
    | brisc => rfl
  · split
    · rw [hf.draws, hf.reads, mapNext]
    · split <;> rfl

/-- Every access is blind to the change, where its CSR read and CSR write are. -/
theorem performAccess_blind {a : CoreAccess} {s : State}
    (hq : a = .csrRead Config.qstatusCsr → ∀ t, c = .trisc t → qstatus (f s) t = qstatus s t)
    (hw : ∀ csr v, a = .csrWrite csr v → performCsrWrite c csr v (f s) = mapNext f (performCsrWrite c csr v s)) :
    performAccess c a (f s) = (performAccess c a s).map (mapNext f) := by
  cases a with
  | store addr width v => exact performStore_blind hf addr width v s
  | load addr width =>
    simp only [performAccess, performLoad]
    split <;> rfl
  | csrRead csr => exact congrArg Except.ok (performCsrRead_blind hf fun hcsr => hq (by rw [hcsr]))
  | csrWrite csr v => exact congrArg Except.ok (hw csr v rfl)
  | ttSync => rfl

end

theorem performTrisc_blind {t : ThreadId} {f : State → State} (hf : CoreBlind (.trisc t) f) {a : TriscAction}
    {s : State}
    (hq : a = .access (.csrRead Config.qstatusCsr) → qstatus (f s) t = qstatus s t)
    (hw : ∀ csr v, a = .access (.csrWrite csr v) →
      performCsrWrite (.trisc t) csr v (f s) = mapNext f (performCsrWrite (.trisc t) csr v s)) :
    performTrisc t a (f s) = (performTrisc t a s).map (mapNext f) := by
  cases a with
  | push w => exact pushWord_blind (hf.unit t (.inl rfl)) w s
  | ttinsn e => exact pushWord_blind (hf.unit t (.inl rfl)) _ s
  | mopSync v => exact performMopSync_blind (hf.unit t (.inl rfl)) s
  | access a =>
    refine performAccess_blind hf (fun ha u hu => ?_) fun csr v ha => hw csr v (by rw [ha])
    cases hu
    exact hq (by rw [ha])

theorem performBrisc_blind {f : State → State} (hf : CoreBlind .brisc f) {a : BriscAction} {s : State}
    (hw : ∀ csr v, a = .access (.csrWrite csr v) →
      performCsrWrite .brisc csr v (f s) = mapNext f (performCsrWrite .brisc csr v s)) :
    performBrisc a (f s) = (performBrisc a s).map (mapNext f) := by
  cases a with
  | pushPostMop t w =>
    have ht := hf.unit t (.inr rfl)
    simp only [performBrisc, ht.thread, ht.setThread]
    rfl
  | writeMopCfg t i v => exact congrArg Except.ok (writeMopCfg_blind (hf.unit t (.inr rfl)) i v s)
  | access a => exact performAccess_blind hf (fun _ _ hc => nomatch hc) fun csr v ha => hw csr v (by rw [ha])

/-- A TRISC's turn, where its next action is blind to the change. -/
theorem coreStep_trisc_blind {t : ThreadId} {f : State → State} {s : State}
    (hp : ((f s).trisc t).program = (s.trisc t).program)
    (hset : ∀ p, (f s).setTriscProgram t p = f (s.setTriscProgram t p))
    (ha : ∀ a rest, (s.trisc t).program = a :: rest →
      performTrisc t a (f (s.setTriscProgram t rest)) =
        (performTrisc t a (s.setTriscProgram t rest)).map (mapNext f)) :
    coreStep (.trisc t) (f s) = mapNext f (coreStep (.trisc t) s) := by
  cases hprogram : (s.trisc t).program with
  | nil => simp only [coreStep, attempt, hp, hprogram, mapNext]
  | cons a rest =>
    simp only [coreStep, attempt, hp, hprogram, hset, ha a rest hprogram]
    cases performTrisc t a (s.setTriscProgram t rest) <;> rfl

/-- BRISC's turn, where its next action is blind to the change. -/
theorem coreStep_brisc_blind {f : State → State} {s : State} (hp : (f s).brisc.program = s.brisc.program)
    (hset : ∀ p, (f s).setBriscProgram p = f (s.setBriscProgram p))
    (ha : ∀ a rest, s.brisc.program = a :: rest →
      performBrisc a (f (s.setBriscProgram rest)) = (performBrisc a (s.setBriscProgram rest)).map (mapNext f)) :
    coreStep .brisc (f s) = mapNext f (coreStep .brisc s) := by
  cases hprogram : s.brisc.program with
  | nil => simp only [coreStep, attempt, hp, hprogram, mapNext]
  | cons a rest =>
    simp only [coreStep, attempt, hp, hprogram, hset, ha a rest hprogram]
    cases performBrisc a (s.setBriscProgram rest) <;> rfl

/-! Another thread's state. -/

theorem coreBlind_setThread {t u : ThreadId} (h : u ≠ t) (th : ThreadState) :
    CoreBlind (.trisc t) (State.setThread · u th) where
  unit t' ht := by
    obtain ht | ht := ht
    · cases ht
      exact unitBlind_setThread h th
    · cases ht
  draws s := State.setThread_draws s u th
  reads s v := by simp only [returnRead, State.setThread_port, State.setThread_setPort, State.setThread_countDraw]

theorem performCsrWrite_setThread (c : CoreId) (csr : Nat) (v : Word) (u : ThreadId) (th : ThreadState) (s : State) :
    performCsrWrite c csr v (s.setThread u th) = mapNext (State.setThread · u th) (performCsrWrite c csr v s) := by
  unfold performCsrWrite
  split
  · rw [State.setThread_port, State.setThread_setPort, mapNext]
  · split
    · rfl
    · split <;> rfl

/-! A core's gathering bit (spec/10_state.md R38). -/

/-- The machine with a core's bit at a given value. -/
def setGathering (c : CoreId) (bit : Bool) (s : State) : State := s.setPort c { s.port c with gathering := bit }

/-- Two answers differ in a core's bit alone. -/
def sameButGathering (c : CoreId) : Result → Result → Prop
  | .next s', r => ∃ bit, r = .next (setGathering c bit s')
  | .fault f, r => r = .fault f
  | .refused x, r => r = .refused x

theorem sameButGathering_mapNext (c : CoreId) (bit : Bool) (r : Result) :
    sameButGathering c r (mapNext (setGathering c bit) r) := by
  cases r with
  | next s' => exact ⟨bit, rfl⟩
  | fault f => rfl
  | refused x => rfl

theorem unitBlind_setGathering (t : ThreadId) (c : CoreId) (bit : Bool) : UnitBlind t (setGathering c bit) where
  thread s := State.setPort_thread s c _ t
  setThread s th := by simp only [setGathering, State.setThread_port, State.setThread_setPort]
  site s := State.setPort_site s c _
  setSite s x := by simp only [setGathering, State.setSite_port, State.setPort_setSite]

theorem returnRead_setGathering (c c' : CoreId) (bit : Bool) (v : Word) (s : State) :
    returnRead c' v (setGathering c bit s) = setGathering c bit (returnRead c' v s) := by
  by_cases h : c' = c
  · subst h
    simp only [returnRead, setGathering, State.port_setPort_same, State.setPort_setPort_same]
  · simp only [returnRead, setGathering, State.port_setPort_ne _ _ _ _ h, State.port_setPort_ne _ _ _ _ (Ne.symm h),
      State.setPort_comm _ h]

theorem coreBlind_setGathering (c c' : CoreId) (bit : Bool) : CoreBlind c' (setGathering c bit) where
  unit t _ := unitBlind_setGathering t c bit
  draws s := State.setPort_draws s c _
  reads s v := by
    rw [returnRead_setGathering, setGathering, State.setPort_countDraw, setGathering, State.countDraw_port]

theorem qstatus_setGathering (c : CoreId) (bit : Bool) (s : State) (t : ThreadId) :
    qstatus (setGathering c bit s) t = qstatus s t := by
  simp only [qstatus, replayBusySeen, anyReplayBusy, anyMopBusy_eq, setGathering, State.setPort_thread,
    State.setPort_draws]

/-- A CSR write is the one access that can end with the bit at one value whatever it was before. -/
theorem performCsrWrite_sameButGathering (c c' : CoreId) (csr : Nat) (v : Word) (bit : Bool) (s : State) :
    sameButGathering c (performCsrWrite c' csr v s) (performCsrWrite c' csr v (setGathering c bit s)) := by
  unfold performCsrWrite
  split
  · by_cases h : c' = c
    · subst h
      refine ⟨v.getLsbD Config.gatherBit, ?_⟩
      simp only [setGathering, State.port_setPort_same, State.setPort_setPort_same]
    · refine ⟨bit, ?_⟩
      simp only [setGathering, State.port_setPort_ne _ _ _ _ h, State.port_setPort_ne _ _ _ _ (Ne.symm h),
        State.setPort_comm _ h]
  · split
    · rfl
    · split <;> rfl

theorem setGathering_setTriscProgram (c : CoreId) (bit : Bool) (s : State) (t : ThreadId) (p : List TriscAction) :
    (setGathering c bit s).setTriscProgram t p = setGathering c bit (s.setTriscProgram t p) := by
  rw [setGathering, setGathering, State.setPort_setTriscProgram, State.setTriscProgram_port]

theorem setGathering_setBriscProgram (c : CoreId) (bit : Bool) (s : State) (p : List BriscAction) :
    (setGathering c bit s).setBriscProgram p = setGathering c bit (s.setBriscProgram p) := by
  rw [setGathering, setGathering, State.setPort_setBriscProgram, State.setBriscProgram_port]

theorem coreStep_trisc_sameButGathering (c : CoreId) (bit : Bool) (t : ThreadId) (s : State) :
    sameButGathering c (coreStep (.trisc t) s) (coreStep (.trisc t) (setGathering c bit s)) := by
  have hp : ((setGathering c bit s).trisc t).program = (s.trisc t).program := State.setPort_trisc_program s c _ t
  by_cases hwrite : ∃ csr v rest, (s.trisc t).program = .access (.csrWrite csr v) :: rest
  · obtain ⟨csr, v, rest, hprogram⟩ := hwrite
    rw [coreStep_trisc_of_performTrisc hprogram rfl, coreStep_trisc_of_performTrisc (hp.trans hprogram) rfl,
      setGathering_setTriscProgram]
    exact performCsrWrite_sameButGathering c _ csr v bit _
  · rw [coreStep_trisc_blind hp (setGathering_setTriscProgram c bit s t) fun a rest hprogram =>
      performTrisc_blind (coreBlind_setGathering c _ bit) (fun _ => qstatus_setGathering c bit _ t)
        fun csr v ha => absurd ⟨csr, v, rest, ha ▸ hprogram⟩ hwrite]
    exact sameButGathering_mapNext c bit _

theorem coreStep_brisc_sameButGathering (c : CoreId) (bit : Bool) (s : State) :
    sameButGathering c (coreStep .brisc s) (coreStep .brisc (setGathering c bit s)) := by
  have hp : (setGathering c bit s).brisc.program = s.brisc.program := State.setPort_brisc_program s c _
  by_cases hwrite : ∃ csr v rest, s.brisc.program = .access (.csrWrite csr v) :: rest
  · obtain ⟨csr, v, rest, hprogram⟩ := hwrite
    rw [coreStep_brisc_of_performBrisc hprogram rfl, coreStep_brisc_of_performBrisc (hp.trans hprogram) rfl,
      setGathering_setBriscProgram]
    exact performCsrWrite_sameButGathering c _ csr v bit _
  · rw [coreStep_brisc_blind hp (setGathering_setBriscProgram c bit s) fun a rest hprogram =>
      performBrisc_blind (coreBlind_setGathering c _ bit) fun csr v ha => absurd ⟨csr, v, rest, ha ▸ hprogram⟩ hwrite]
    exact sameButGathering_mapNext c bit _

/-- Every agent's turn is the same with either value of a core's bit, but for that bit. -/
theorem agentStep_sameButGathering (c : CoreId) (bit : Bool) (a : Agent) (s : State) :
    sameButGathering c (agentStep a s) (agentStep a (setGathering c bit s)) := by
  cases a with
  | core c' =>
    cases c' with
    | trisc t => exact coreStep_trisc_sameButGathering c bit t s
    | brisc => exact coreStep_brisc_sameButGathering c bit s
  | expander site =>
    rw [agentStep, agentStep, expanderStep_blind (unitBlind_setGathering _ c bit)]
    exact sameButGathering_mapNext c bit _

/-! The statements. -/

/-- Settles O43: the units are blind to every port; a core's turn is blind to the bit, or writes it. -/
theorem gatheringBitHasNoEffect : Obligations.GatheringBitHasNoEffect := by
  refine ⟨fun s site c p => ?_, fun s a c bit => ?_⟩
  · rw [expanderStep_blind (unitBlind_setPort _ c p)]
    cases expanderStep site s <;> rfl
  · have hsame := agentStep_sameButGathering c bit a s
    cases hstep : agentStep a s <;> rw [hstep] at hsame <;> exact hsame

/-- Settles O51: a turn of a thread's own changes that thread alone, and is blind to every other but for the read of
CSR 0xBC0. -/
theorem threadsShareNoState : Obligations.ThreadsShareNoState := by
  refine ⟨fun a s s' t ha h t' hne => ?_, fun a s t u th ha hne => ?_⟩
  · obtain rfl | rfl | rfl := ha
    · exact (mopStep_move h).1 t' hne
    · exact (replayStep_move h).1 t' hne
    · exact (coreStep_other_trisc hne.symm h).1
  · have hmap : agentStep a (s.setThread u th) = mapNext (State.setThread · u th) (agentStep a s) := by
      obtain rfl | rfl | ⟨rfl, hread⟩ := ha
      · exact mopStep_blind (unitBlind_setThread hne th) s
      · exact replayStep_blind (unitBlind_setThread hne th) s
      · refine coreStep_trisc_blind (f := (State.setThread · u th)) (by simp)
          (State.setThread_setTriscProgram s u t th) fun a rest hprogram => ?_
        refine performTrisc_blind (coreBlind_setThread hne th) (fun ha => ?_)
          fun csr v _ => performCsrWrite_setThread _ csr v u th _
        exact absurd (ha ▸ hprogram) (hread rest)
    rw [hmap]
    cases agentStep a s <;> rfl

end Sys2Proof.Machine
end
